-- ==== Sys2Proof/Word.lean ====
section
/-!
DEFINITION. The word types of the block: bytes, host words, source addresses, tile indices,
the sixteen bytes of a header or an encoded tile, and the grid of a decoded tile
(spec/00_scope.md rules R6, R7, R10).
-/

namespace Sys2Proof

/-- A byte, bit 7 the most significant (R10). -/
abbrev Byte := BitVec 8

/-- A host register: 32 bits (R39). -/
abbrev Word := BitVec 32

/-- A source byte address: 23 bits (R7, R60). -/
abbrev SrcAddr := BitVec 23

/-- A tile index or a tile count: 17 bits (R7). -/
abbrev TileIdx := BitVec 17

/-- One entry of the tile store: 128 bits (R96). -/
abbrev Entry := BitVec 128

/-- Sixteen bytes in address order: a header or an encoded tile (R90, R92). -/
abbrev Bytes16 := Vector Byte 16

/-- A decoded tile: row `i` from the top, column `c` from the left, each a 2-bit colour index (R94). -/
abbrev Grid := Vector (Vector (BitVec 2) 8) 8

end Sys2Proof
end

