-- ==== Sys2Proof/Syntax.lean ====
section
/-!
DEFINITION. The operations of the block, one constructor for each row of spec/opcode_table.json
(spec/30_encoding.md rule R103), the words that select them, one form for each of the table's five
formats, and the ways a word can select none.
-/

namespace Sys2Proof

/-- The fourteen operations of R103. Operands carry every bit of the row's pattern that is not fixed,
the ignored ones (`x`) too. -/
inductive Instr where
  /-- START (R121, R122): `x` is `h_wdata[31:8]`, ignored. -/
  | start (x : BitVec 24)
  /-- RDREG (R124): `n` is the register index. -/
  | rdreg (n : BitVec 5)
  /-- WRTSEL (R126): `x` is `h_wdata[31:20]`, ignored; `row` and `tile` are ROW and TILE. -/
  | wrtsel (x : BitVec 12) (row : BitVec 3) (tile : TileIdx)
  /-- RDROW (R127). -/
  | rdrow
  /-- HDR_READ (R140). -/
  | hdrRead
  /-- MAGIC_CHECK (R141). -/
  | magicCheck
  /-- COUNT_LATCH (R142). -/
  | countLatch
  /-- GFX_CHECK (R143). -/
  | gfxCheck
  /-- BANK_SEEK (R151). -/
  | bankSeek
  /-- TILE_READ (R160). -/
  | tileRead
  /-- TILE_DECODE (R184). -/
  | tileDecode
  /-- SRC_READ (R63): a read transaction at byte address `a`. -/
  | srcRead (a : SrcAddr)
  /-- SRC_SEEK (R65): a seek transaction to byte address `a`. -/
  | srcSeek (a : SrcAddr)
  /-- UNPACK (R185): `b` is `ut_in`, byte `m` of the encoded tile in bits `[8m+7:8m]`. -/
  | unpack (b : BitVec 128)
deriving DecidableEq, Repr

/-- A word of one of the table's five formats (R103), as the pins of R236 or the register PHASE form it. -/
inductive PortWord where
  /-- HOSTW: `h_we, h_idx[4:0], h_wdata[31:0]`. -/
  | hostW (w : BitVec 38)
  /-- HOSTR: `h_we, h_idx[4:0]`. -/
  | hostR (w : BitVec 6)
  /-- PHASE: the 4-bit code of the register PHASE. -/
  | phase (w : BitVec 4)
  /-- SRCREQ: `src_op, src_addr[22:0]`. -/
  | srcReq (w : BitVec 24)
  /-- COMB: `ut_in[127:0]`. -/
  | comb (w : BitVec 128)
deriving DecidableEq, Repr

/-- Why a word selects none of the fourteen operations. -/
inductive DecodeError where
  /-- A write to CMD with a code other than `0x01` (R105, R123). -/
  | reservedCommand (code : Byte)
  /-- A write to an index other than 0 and 7 (R40, R125). -/
  | ignoredWrite (idx : BitVec 5)
  /-- PHASE is P_IDLE, P_DONE or P_ERROR, which have no step (R104). -/
  | idlePhase (code : BitVec 4)
  /-- PHASE codes 10 to 15, which are never held (R22, R104). -/
  | unreachablePhase (code : BitVec 4)
  /-- A HOSTW word with `h_we = 0` or a HOSTR word with `h_we = 1` (R103). -/
  | wrongDirection
deriving DecidableEq, Repr

end Sys2Proof
end

