-- ==== Sys2Proof/WellFormed.lean ====
section
/-!
DEFINITION. When an operation is well formed: it is one that some word selects
(spec/30_encoding.md rule R103). Register index 8 read is RDROW, so RDREG has every index but 8.
-/

namespace Sys2Proof

/-- RDREG of index 8 is ill formed: that word is RDROW's (R103; note of RDREG's row of the table).
Every other operand value of every row is legal. -/
def Instr.wellFormed : Instr → Bool
  | .rdreg n => n != 8#5
  | .start _ => true
  | .wrtsel _ _ _ => true
  | .rdrow => true
  | .hdrRead => true
  | .magicCheck => true
  | .countLatch => true
  | .gfxCheck => true
  | .bankSeek => true
  | .tileRead => true
  | .tileDecode => true
  | .srcRead _ => true
  | .srcSeek _ => true
  | .unpack _ => true

end Sys2Proof
end

