-- ==== Sys2Proof/Decode.lean ====
section
/-!
DEFINITION. The decoder: a word of one of the five formats gives the operation it selects or the
reason it selects none, by name (spec/30_encoding.md rules R97, R103 to R105; spec/opcode_table.json).
After it the encoder, and the table's own numbering of a word.
-/

namespace Sys2Proof

/-- HOSTW (R103): `h_we` is bit 37, `h_idx` bits 36 to 32, `h_wdata` bits 31 to 0. Index 0 is CMD, whose
code is `[7:0]` and whose `[31:8]` are ignored (R97); index 7 is TSEL (R126); every other index is
ignored (R125). -/
def decodeHostWrite (w : BitVec 38) : Except DecodeError Instr :=
  if w.extractLsb' 37 1 = 1#1 then
    let idx := w.extractLsb' 32 5
    if idx = 0#5 then
      if w.extractLsb' 0 8 = 0x01#8 then .ok (.start (w.extractLsb' 8 24))
      else .error (.reservedCommand (w.extractLsb' 0 8))
    else if idx = 7#5 then
      .ok (.wrtsel (w.extractLsb' 20 12) (w.extractLsb' 17 3) (w.extractLsb' 0 17))
    else .error (.ignoredWrite idx)
  else .error .wrongDirection

/-- HOSTR (R103): `h_we` is bit 5, `h_idx` bits 4 to 0; index 8 is the tile read-out RDROW (R127). -/
def decodeHostRead (w : BitVec 6) : Except DecodeError Instr :=
  if w.extractLsb' 5 1 = 0#1 then
    if w.extractLsb' 0 5 = 8#5 then .ok .rdrow else .ok (.rdreg (w.extractLsb' 0 5))
  else .error .wrongDirection

/-- PHASE (R104): codes 1 to 7 have a step, 0, 8 and 9 wait, 10 to 15 are never held. -/
def decodePhase (w : BitVec 4) : Except DecodeError Instr :=
  match w.toNat with
  | 0 => .error (.idlePhase w)
  | 1 => .ok .hdrRead
  | 2 => .ok .magicCheck
  | 3 => .ok .countLatch
  | 4 => .ok .gfxCheck
  | 5 => .ok .bankSeek
  | 6 => .ok .tileRead
  | 7 => .ok .tileDecode
  | 8 => .error (.idlePhase w)
  | 9 => .error (.idlePhase w)
  | _ => .error (.unreachablePhase w)

/-- SRCREQ (R101, R103): `src_op` is bit 23 (0 READ, 1 SEEK), `src_addr` bits 22 to 0. -/
def decodeSrcReq (w : BitVec 24) : Except DecodeError Instr :=
  if w.extractLsb' 23 1 = 0#1 then .ok (.srcRead (w.extractLsb' 0 23))
  else .ok (.srcSeek (w.extractLsb' 0 23))

/-- The decoder, total on the words of every format (R103). -/
def decode : PortWord → Except DecodeError Instr
  | .hostW w => decodeHostWrite w
  | .hostR w => decodeHostRead w
  | .phase w => decodePhase w
  | .srcReq w => decodeSrcReq w
  | .comb w => .ok (.unpack w)

/-- The word of an operation, from the patterns of spec/opcode_table.json. -/
def encode : Instr → PortWord
  | .start x => .hostW (1#1 ++ 0#5 ++ x ++ 0x01#8)
  | .rdreg n => .hostR (0#1 ++ n)
  | .wrtsel x row tile => .hostW (1#1 ++ 7#5 ++ x ++ row ++ tile)
  | .rdrow => .hostR (0#1 ++ 8#5)
  | .hdrRead => .phase 1#4
  | .magicCheck => .phase 2#4
  | .countLatch => .phase 3#4
  | .gfxCheck => .phase 4#4
  | .bankSeek => .phase 5#4
  | .tileRead => .phase 6#4
  | .tileDecode => .phase 7#4
  | .srcRead a => .srcReq (0#1 ++ a)
  | .srcSeek a => .srcReq (1#1 ++ a)
  | .unpack b => .comb b

/-- The word of spec/opcode_table.json whose bits are `w`, in a format of `nbits` bits, given as the
table's width (38, 6, 4, 24, 128) or rounded up to whole bytes (40, 8, 8, 24, 128). Rounded to one byte
the formats HOSTR and PHASE cannot be told apart by their length: 1 to 7 are taken as the PHASE codes
that have a step and every other value below 64 as a HOSTR word, which gives each row of the table its
own pattern. DESIGN CHOICE, log 8. -/
def PortWord.ofTable (nbits w : Nat) : Option PortWord :=
  match nbits with
  | 38 => if w < 2 ^ 38 then some (.hostW (BitVec.ofNat 38 w)) else none
  | 40 => if w < 2 ^ 38 then some (.hostW (BitVec.ofNat 38 w)) else none
  | 6 => if w < 2 ^ 6 then some (.hostR (BitVec.ofNat 6 w)) else none
  | 4 => if w < 2 ^ 4 then some (.phase (BitVec.ofNat 4 w)) else none
  | 8 =>
    if 1 ≤ w ∧ w ≤ 7 then some (.phase (BitVec.ofNat 4 w))
    else if w < 2 ^ 6 then some (.hostR (BitVec.ofNat 6 w)) else none
  | 24 => if w < 2 ^ 24 then some (.srcReq (BitVec.ofNat 24 w)) else none
  | 128 => if w < 2 ^ 128 then some (.comb (BitVec.ofNat 128 w)) else none
  | _ => none

/-- What the decoder reads from an operation's word, numbered as spec/opcode_table.json numbers it. -/
def decodeTableWord (nbits w : Nat) : Option Instr :=
  match PortWord.ofTable nbits w with
  | some p =>
    match decode p with
    | .ok i => some i
    | .error _ => none
  | none => none

end Sys2Proof
end

