-- ==== Sys2Proof/Config.lean ====
section
/-!
DEFINITION. The format constants of the block (spec/00_scope.md rules R6 and R7), and the free values:
what the spec leaves unspecified in a read response (spec/20_memory.md rule R63). A free value has no
body, so nothing can be proved of it; it is applied to the counter `freeNext` of State.
-/

namespace Sys2Proof.Config

/-- HEADER_SIZE (R6). -/
def headerSize : Nat := 16

/-- PRG_BANK_SIZE (R6). -/
def prgBankSize : Nat := 16384

/-- GFX_BANK_SIZE (R6). -/
def gfxBankSize : Nat := 8192

/-- TILE_SIZE (R6). -/
def tileSize : Nat := 16

/-- TILES_PER_BANK (R6). -/
def tilesPerBank : Nat := 512

/-- The number of entries of the tile store: the largest sequence a header can ask for (R7, R37). -/
def tileStoreSize : Nat := 130560

/-- MAGIC: the four bytes `4E 45 53 1A` in address order (R6, R91). -/
def magic : Vector Byte 4 := #v[0x4E, 0x45, 0x53, 0x1A]

/-- FREE VALUE: byte `m` of DATA in the `k`-th read response, where R63 leaves it unspecified
(`m ≥ COUNT`, or `FAIL = 1`). Log 10. -/
opaque freeByte (k m : Nat) : Byte

/-- FREE VALUE: PAST of the `k`-th read response when `FAIL = 1` (R63). Log 10. -/
opaque freePast (k : Nat) : Bool

/-- FREE VALUE: COUNT of the `k`-th read response when `FAIL = 1` (R63); 17 to 31 are never sent (R101).
Log 10. -/
opaque freeCount (k : Nat) : Fin 17

end Sys2Proof.Config
end

