-- ==== Sys2Proof/Machine/State.lean ====
section
/-!
DEFINITION. The state of the machine as plain data: the registers and memories of the block
(spec/10_state.md rule R20), the source it is attached to (the parameters SRC, FAIL and STALL of
spec/00_scope.md rule R8), what its ports show (spec/70_reset_and_hazards.md rule R236), what the agents
outside the sequencer will do next (spec/20_memory.md rule R75), and the state right after reset (R45).
-/

namespace Sys2Proof.Machine

/-- STATE (R21). -/
inductive RunState where
  | idle
  | busy
  | done
  | error
deriving DecidableEq, Repr

/-- PHASE (R22, R104): the ten codes that are ever held. -/
inductive Phase where
  | idle
  | hdr
  | magic
  | counts
  | gfxchk
  | seek
  | tread
  | tdec
  | done
  | error
deriving DecidableEq, Repr

/-- ECODE (R33, R200): no error, and the four error kinds. -/
inductive ErrorKind where
  | none
  | truncatedInput
  | invalidFormat
  | unsupportedGraphicsStorage
  | sourceFailure
deriving DecidableEq, Repr

/-- EPHASE (R33): which source access failed. -/
inductive ErrorPhase where
  | none
  | headerRead
  | seek
  | tileRead
deriving DecidableEq, Repr

/-- The source accesses of one run (R66). -/
inductive Access where
  | hdr
  | seek
  | tile (t : Nat)
deriving DecidableEq, Repr

/-- A memory of `w`-bit cells: a list of (address, cell) pairs. `Memory 8` is a list of `Host.Cell`.
Its one canonical form is `Memory.wf` (Machine/Ops.lean). -/
abbrev Memory (w : Nat) := List (Nat × BitVec w)

/-- SRC (R61): `len` is SRC_LEN; the bytes that are not zero are listed. -/
structure Image where
  len : Nat
  cells : Memory 8
deriving DecidableEq, Repr

/-- FAIL (R66): the partial map from accesses to failure codes; tiles by rising index. -/
structure FailMap where
  hdr : Option Byte
  seek : Option Byte
  tiles : List (Nat × Byte)
deriving DecidableEq, Repr

/-- The source attached to the source port: SRC, FAIL and STALL (R8, R42, R66). -/
structure Source where
  image : Image
  fail : FailMap
  stall : Option Access
deriving DecidableEq, Repr

/-- OP of a source-port request (R101). -/
inductive SrcOp where
  | read
  | seek
deriving DecidableEq, Repr

/-- A source-port request: `src_op` and `src_addr` (R101). -/
structure SrcRequest where
  op : SrcOp
  addr : SrcAddr
deriving DecidableEq, Repr

/-- The response to a read (R63): FAIL, FCODE, PAST, COUNT and the sixteen bytes of DATA. -/
structure ReadResponse where
  fail : Bool
  fcode : Byte
  past : Bool
  count : BitVec 5
  data : Bytes16
deriving DecidableEq, Repr

/-- The response to a seek (R65). -/
structure SeekResponse where
  fail : Bool
  fcode : Byte
deriving DecidableEq, Repr

/-- The response that ends a transaction, by its kind (R101). -/
inductive SrcAnswer where
  | read (r : ReadResponse)
  | seek (r : SeekResponse)
deriving DecidableEq, Repr

/-- What the ports show after a step (R236), at the level of transactions (log 17). -/
structure Ports where
  /-- `h_rdata`: the value read, in the step of a host read (log 16). -/
  hRdata : Option Word
  /-- The request held (`src_req` high) while the source has not answered it (R247). -/
  srcPending : Option SrcRequest
  /-- The transaction that was answered in this step. -/
  srcDone : Option (SrcRequest × SrcAnswer)
  /-- `ut_in` (R185). -/
  utIn : BitVec 128
  /-- `ut_out` (R185). -/
  utOut : BitVec 128
deriving DecidableEq, Repr

/-- What an agent outside the sequencer does, or leaves to the sequencer, as one step (R75, R243; log 5). -/
inductive Input where
  /-- The sequencer takes its turn. -/
  | sequencer
  /-- A host access: `h_we`, `h_idx`, `h_wdata` with `h_sel` (R120, R236). -/
  | host (we : Bool) (idx : BitVec 5) (wdata : Word)
  /-- A source-port transaction: `src_op` (false READ, true SEEK) and `src_addr` (log 9). -/
  | sourcePort (op : Bool) (addr : SrcAddr)
  /-- `ut_in` is driven (R185, R243). -/
  | unpackPort (b : BitVec 128)
  /-- `rst` is asserted and released (R230). -/
  | reset
  /-- The host attaches a source (R233, R241). -/
  | attach (src : Source)
deriving DecidableEq, Repr

/-- The registers and memories of the block: R20, less the constant palette (R38, log 19). -/
structure Block where
  /-- STATE (R21). -/
  state : RunState
  /-- PHASE (R22). -/
  phase : Phase
  /-- REJ (R23). -/
  rej : Bool
  /-- POS (R24). -/
  pos : SrcAddr
  /-- BANK (R25). -/
  bank : BitVec 8
  /-- TIB (R26). -/
  tib : BitVec 9
  /-- TIDX (R27). -/
  tidx : TileIdx
  /-- HDR[0..15] (R28). -/
  hdr : Bytes16
  /-- PBC (R29). -/
  pbc : Byte
  /-- GBC (R30). -/
  gbc : Byte
  /-- TBUF[0..15] (R31). -/
  tbuf : Bytes16
  /-- TILECOUNT (R32). -/
  tilecount : TileIdx
  /-- ECODE (R33). -/
  ecode : ErrorKind
  /-- EPHASE (R33). -/
  ephase : ErrorPhase
  /-- ETILE (R34). -/
  etile : TileIdx
  /-- ESRC (R35). -/
  esrc : Byte
  /-- TSEL (R36): `[16:0]` TILE, `[19:17]` ROW. -/
  tsel : BitVec 20
  /-- TS[0..130559] (R37), keyed by tile index. -/
  ts : Memory 128
deriving DecidableEq, Repr

/-- The machine: the block, its source, its ports, what comes in next, and the free-value counter. -/
structure State where
  block : Block
  source : Source
  ports : Ports
  /-- Oldest first; when nothing is listed the sequencer takes its turn (log 5). -/
  inputs : List Input
  /-- The model's own: how many read responses have used free values (log 10). -/
  freeNext : Nat
deriving DecidableEq, Repr

/-- What a step takes up: a word to decode, or one of the two host actions that are no word. -/
inductive Fetched where
  | word (w : PortWord)
  | reset
  | attach (src : Source)
deriving DecidableEq, Repr

/-- The reasons the machine stops. Each is the model's own and safe: the model stops where the spec
defines no behaviour. The spec's four error kinds are no faults: they are taken (R210, `Block.raise`). -/
inductive Fault where
  /-- Raised by TILE_DECODE, RDROW and RDREG when the index names none of the 130,560 entries of the
  tile store (R60). Safe; no run reaches it (R7). Log 13. -/
  | noSuchTileEntry
  /-- Raised when a source is attached while STATE is BUSY: outside the model (R241, R243). Safe. Log 12. -/
  | sourceChangedDuringRun
  /-- Raised by SRC_READ and SRC_SEEK when the source port is not free for the request: a run is in progress
  and its phase presents another request or none, or a request is held. No move in the model (R67, R236,
  R241, R243). Safe. Log 9. -/
  | sourceInUse
  /-- Raised for a word that neither the pins nor PHASE can form (`h_we` of the wrong direction, PHASE
  codes 10 to 15). Safe; no step of the machine fetches one. Log 20. -/
  | noSuchOperation
deriving DecidableEq, Repr

/-- The reasons the model refuses an operation. -/
inductive Refusal where
  /-- Raised by a dispatch arm that has no meaning yet: none is left. Safe. -/
  | notModelled (mnemonic : String)
deriving DecidableEq, Repr

/-- The registers of the block after reset (R45). HDR, TBUF and TS are unspecified there: DESIGN CHOICE
zero, zero and nothing listed (logs 1, 2, 3; unsafe). -/
def Block.reset : Block where
  state := .idle
  phase := .idle
  rej := false
  pos := 0
  bank := 0
  tib := 0
  tidx := 0
  hdr := Vector.replicate 16 0
  pbc := 0
  gbc := 0
  tbuf := Vector.replicate 16 0
  tilecount := 0
  ecode := .none
  ephase := .none
  etile := 0
  esrc := 0
  tsel := 0
  ts := []

/-- The source at reset: no byte, no failure, no stall. DESIGN CHOICE, log 4. -/
def Source.empty : Source where
  image := { len := 0, cells := [] }
  fail := { hdr := .none, seek := .none, tiles := [] }
  stall := .none

/-- The ports at reset: nothing is shown and `ut_in` is zero. DESIGN CHOICE, log 16. -/
def Ports.reset : Ports where
  hRdata := .none
  srcPending := .none
  srcDone := .none
  utIn := 0
  utOut := 0

/-- The machine right after reset (R45, R231). -/
def State.reset : State where
  block := Block.reset
  source := Source.empty
  ports := Ports.reset
  inputs := []
  freeNext := 0

end Sys2Proof.Machine
end

