-- ==== Sys2Proof/Machine/Operands.lean ====
section
/-!
DEFINITION. Operand assembly (spec/30_encoding.md rule R102): the graphics-region address, the colour
index of a pixel and the packings of rows and tiles (spec/42_bank_address.md R150,
spec/44_tile_unpack.md R180 to R182, R188), the byte lanes of the 128-bit buses (R101), and the numeric
codes of the control registers (spec/10_state.md R21, R22, R33).
-/

namespace Sys2Proof.Machine

/-- `gfx_base(p) = 16 + p × 16384`, a 23-bit value (R150). -/
def gfxBase (p : Byte) : SrcAddr :=
  BitVec.ofNat 23 (Config.headerSize + p.toNat * Config.prgBankSize)

/-- Byte `m` of a 128-bit bus is in bits `[8m+7:8m]` (R101, R185). -/
def bytesOfBus (b : BitVec 128) : Bytes16 :=
  Vector.ofFn fun m : Fin 16 => b.extractLsb' (8 * m.val) 8

/-- `pixel(B, i, c) = {bitB, bitA}` with both bits taken at position `7 − c` (R181). -/
def pixel (b : Bytes16) (i c : Fin 8) : BitVec 2 :=
  BitVec.ofBool ((b[i.val + 8]).getLsbD (7 - c.val)) ++ BitVec.ofBool ((b[i.val]).getLsbD (7 - c.val))

/-- `unpack(B)`, the decoded tile (R180). -/
def unpackTile (b : Bytes16) : Grid :=
  Vector.ofFn fun i => Vector.ofFn fun c => pixel b i c

/-- The row word of a grid row: leftmost pixel in the top two bits (R95). -/
def packRow (r : Vector (BitVec 2) 8) : BitVec 16 :=
  r[0] ++ r[1] ++ r[2] ++ r[3] ++ r[4] ++ r[5] ++ r[6] ++ r[7]

/-- A tile-store entry: row `i` in bits `[16i+15:16i]` (R96). -/
def packGrid (g : Grid) : Entry :=
  packRow g[7] ++ packRow g[6] ++ packRow g[5] ++ packRow g[4] ++ packRow g[3] ++ packRow g[2] ++
    packRow g[1] ++ packRow g[0]

/-- `rowword(B, i)` (R182). -/
def rowword (b : Bytes16) (i : Fin 8) : BitVec 16 :=
  packRow (unpackTile b)[i]

/-- `entry(B)` (R182). -/
def entry (b : Bytes16) : Entry :=
  packGrid (unpackTile b)

/-- One plane byte of a grid row: bit `7 − c` is bit `k` of the colour index in column `c` (R188). -/
def planeByte (r : Vector (BitVec 2) 8) (k : Nat) : Byte :=
  BitVec.ofFnLE fun j : Fin 8 => (r[7 - j.val]).getLsbD k

/-- `encode(G)`, the inverse of `unpack` (R188); no operation of the block computes it. -/
def encodeTile (g : Grid) : Bytes16 :=
  Vector.ofFn fun m : Fin 16 =>
    if h : m.val < 8 then planeByte g[m.val] 0 else planeByte (g[m.val - 8]) 1

/-- The codes of STATE (R21). -/
def RunState.code : RunState → BitVec 2
  | .idle => 0
  | .busy => 1
  | .done => 2
  | .error => 3

/-- The codes of PHASE (R22). -/
def Phase.code : Phase → BitVec 4
  | .idle => 0
  | .hdr => 1
  | .magic => 2
  | .counts => 3
  | .gfxchk => 4
  | .seek => 5
  | .tread => 6
  | .tdec => 7
  | .done => 8
  | .error => 9

/-- STATE as the function of PHASE that it is (R22). -/
def Phase.runState : Phase → RunState
  | .idle => .idle
  | .hdr => .busy
  | .magic => .busy
  | .counts => .busy
  | .gfxchk => .busy
  | .seek => .busy
  | .tread => .busy
  | .tdec => .busy
  | .done => .done
  | .error => .error

/-- The phase of a code; 10 to 15 are never held (R22). -/
def Phase.ofCode (c : BitVec 4) : Option Phase :=
  match c.toNat with
  | 0 => some .idle
  | 1 => some .hdr
  | 2 => some .magic
  | 3 => some .counts
  | 4 => some .gfxchk
  | 5 => some .seek
  | 6 => some .tread
  | 7 => some .tdec
  | 8 => some .done
  | 9 => some .error
  | _ => none

/-- The codes of ECODE (R33, R200). -/
def ErrorKind.code : ErrorKind → BitVec 3
  | .none => 0
  | .truncatedInput => 1
  | .invalidFormat => 2
  | .unsupportedGraphicsStorage => 3
  | .sourceFailure => 4

/-- The codes of EPHASE (R33). -/
def ErrorPhase.code : ErrorPhase → BitVec 2
  | .none => 0
  | .headerRead => 1
  | .seek => 2
  | .tileRead => 3

/-- The palette, `{R, G, B, A}` with `R` in `[31:24]` (R38, R191). The four constants are never written,
so they are hard-wired here and no field of the state (log 19). -/
def palette (n : Fin 4) : Word :=
  match n with
  | 0 => 0x00000000#32
  | 1 => 0xFF0000FF#32
  | 2 => 0x00FF00FF#32
  | 3 => 0x0000FFFF#32

/-- TSEL.TILE (R36). -/
def Block.selTile (b : Block) : TileIdx := b.tsel.extractLsb' 0 17

/-- TSEL.ROW (R36). -/
def Block.selRow (b : Block) : BitVec 3 := b.tsel.extractLsb' 17 3

end Sys2Proof.Machine
end

