-- ==== Sys2Proof/Machine/Flags.lean ====
section
/-!
DEFINITION. The block's only flag, REJ (spec/10_state.md rule R23), and the two packed status registers
that the host reads: STATUS (spec/30_encoding.md rule R98) and ERR (R99).
-/

namespace Sys2Proof.Machine

/-- A rejected write to CMD: REJ is set and nothing else changes (R122, R123). -/
def Block.reject (b : Block) : Block := { b with rej := true }

/-- STATUS: `[1:0]` STATE, `[2]` REJ, `[3]` 0, `[7:4]` PHASE, `[31:8]` 0 (R98). -/
def Block.statusWord (b : Block) : Word :=
  0#24 ++ b.phase.code ++ 0#1 ++ BitVec.ofBool b.rej ++ b.state.code

/-- ERR: `[2:0]` ECODE, `[3]` 0, `[5:4]` EPHASE, `[31:6]` 0 (R99). -/
def Block.errWord (b : Block) : Word :=
  0#26 ++ b.ephase.code ++ 0#1 ++ b.ecode.code

end Sys2Proof.Machine
end

