-- ==== Sys2Proof/Machine/Ops.lean ====
section
/-!
DEFINITION. The shared operations every meaning is written over: the memory in its one canonical form,
the source as an oracle and its two transactions (spec/20_memory.md rules R63 to R66), the tile store
(R68, R127), error entry and what leaves it (spec/60_exceptions.md R210, R212), completion
(spec/43_tile_fetch.md R162), the register map (spec/10_state.md R39), and what the ports show.
-/

namespace Sys2Proof.Machine

/-- What a cell that is not listed reads as: zero. For the tile store this is a DESIGN CHOICE
(R45 leaves its contents unspecified; log 3); for a source image it only shortens the list. -/
def Memory.absent (w : Nat) : BitVec w := 0#w

/-- The cell at address `a`. -/
def Memory.read {w : Nat} : Memory w → Nat → BitVec w
  | [], _ => Memory.absent w
  | (k, v) :: rest, a => if k = a then v else Memory.read rest a

/-- Write `v` at address `a`, keeping the canonical form: writing what an unlisted cell reads as
removes the cell. -/
def Memory.write {w : Nat} : Memory w → Nat → BitVec w → Memory w
  | [], a, v => if v = Memory.absent w then [] else [(a, v)]
  | (k, x) :: rest, a, v =>
    if a < k then
      if v = Memory.absent w then (k, x) :: rest else (a, v) :: (k, x) :: rest
    else if a = k then
      if v = Memory.absent w then rest else (a, v) :: rest
    else (k, x) :: Memory.write rest a v

/-- Canonical from address `lo` on: addresses at least `lo` and strictly rising, no listed cell equal
to what an unlisted one reads as. -/
def Memory.wfFrom {w : Nat} : Nat → Memory w → Bool
  | _, [] => true
  | lo, (k, v) :: rest => decide (lo ≤ k) && v != Memory.absent w && Memory.wfFrom (k + 1) rest

/-- The one canonical form of a memory. -/
def Memory.wf {w : Nat} (m : Memory w) : Bool := Memory.wfFrom 0 m

/-- Every listed address is below `n`. -/
def Memory.below {w : Nat} (m : Memory w) (n : Nat) : Bool := m.all fun c => decide (c.1 < n)

/-- `SRC[a]`, for `a < SRC_LEN` (R61). -/
def Image.byte (img : Image) (a : Nat) : Byte := img.cells.read a

/-- The sixteen bytes of SRC from `a` on. -/
def Image.bytes16 (img : Image) (a : Nat) : Bytes16 := Vector.ofFn fun m : Fin 16 => img.byte (a + m.val)

/-- The code a tile's read fails with, if it fails. -/
def lookupCode : List (Nat × Byte) → Nat → Option Byte
  | [], _ => none
  | (k, c) :: rest, t => if k = t then some c else lookupCode rest t

/-- `FAIL(access)`, when the access is in the map's domain (R66). -/
def FailMap.code? (f : FailMap) : Access → Option Byte
  | .hdr => f.hdr
  | .seek => f.seek
  | .tile t => lookupCode f.tiles t

/-- Indices rise strictly from `lo` on. -/
def risingFrom : Nat → List (Nat × Byte) → Bool
  | _, [] => true
  | lo, (k, _) :: rest => decide (lo ≤ k) && risingFrom (k + 1) rest

/-- The one canonical form of a source: image cells canonical and inside SRC_LEN, FAIL's tiles rising. -/
def Source.wf (src : Source) : Bool :=
  src.image.cells.wf && src.image.cells.below src.image.len && risingFrom 0 src.fail.tiles

/-- The failure code of an access; a transaction that is no access of the run never fails (R66). -/
def Source.failCode (src : Source) (acc : Option Access) : Option Byte :=
  acc.bind src.fail.code?

/-- Whether the source never answers this access (STALL, R66). -/
def Source.stalls (src : Source) : Option Access → Bool
  | none => false
  | some x => src.stall == some x

/-- The number of bytes the source delivers at `a`: `min(16, max(0, SRC_LEN − a))` (R63). -/
def Source.deliverable (src : Source) (a : SrcAddr) : Nat := min 16 (src.image.len - a.toNat)

/-- The response to `SrcRead16(a)` (R63). Bytes at and above COUNT, and PAST, COUNT and DATA of a failed
read, are unspecified: the `k`-th free values (log 10). -/
def Source.readResponse (src : Source) (acc : Option Access) (a : SrcAddr) (k : Nat) : ReadResponse :=
  match src.failCode acc with
  | some c =>
    { fail := true
      fcode := c
      past := Config.freePast k
      count := BitVec.ofNat 5 (Config.freeCount k).val
      data := Vector.ofFn fun m : Fin 16 => Config.freeByte k m.val }
  | none =>
    { fail := false
      fcode := 0
      past := decide (src.image.len < a.toNat)
      count := BitVec.ofNat 5 (src.deliverable a)
      data := Vector.ofFn fun m : Fin 16 =>
        if m.val < src.deliverable a then src.image.byte (a.toNat + m.val) else Config.freeByte k m.val }

/-- The response to `SrcSeek` (R65): no data and no end condition. -/
def Source.seekResponse (src : Source) (acc : Option Access) : SeekResponse :=
  match src.failCode acc with
  | some c => { fail := true, fcode := c }
  | none => { fail := false, fcode := 0 }

/-- The machine with its block replaced. -/
def State.withBlock (s : State) (b : Block) : State := { s with block := b }

/-- A step that reads no register and completes no transaction shows neither (R236). A request that the
source has not answered stays held (R247). -/
def State.quiet (s : State) : State :=
  { s with ports := { s.ports with hRdata := none, srcDone := none } }

/-- A host read answers `v` on `h_rdata` (R120, R236). -/
def State.showRead (s : State) (v : Word) : State :=
  { s.quiet with ports := { s.quiet.ports with hRdata := some v } }

/-- The source does not answer: the request is held and nothing else happens (R247). -/
def State.holdRequest (s : State) (q : SrcRequest) : State :=
  { s.quiet with ports := { s.quiet.ports with srcPending := some q } }

/-- The source answers: the request falls and the transaction is shown (R236). -/
def State.showTransaction (s : State) (q : SrcRequest) (r : SrcAnswer) : State :=
  { s.quiet with ports := { s.quiet.ports with srcPending := none, srcDone := some (q, r) } }

/-- `SrcRead16(a)` as access `acc` (R63): the state of the ports after it, and the response, or none
while the source does not answer (R247). -/
def State.srcRead16 (s : State) (acc : Option Access) (a : SrcAddr) : State × Option ReadResponse :=
  if s.source.stalls acc then (s.holdRequest { op := .read, addr := a }, none)
  else
    let r := s.source.readResponse acc a s.freeNext
    ({ s.showTransaction { op := .read, addr := a } (.read r) with freeNext := s.freeNext + 1 }, some r)

/-- `SrcSeek(a)` as access `acc` (R65). -/
def State.srcSeek (s : State) (acc : Option Access) (a : SrcAddr) : State × Option SeekResponse :=
  if s.source.stalls acc then (s.holdRequest { op := .seek, addr := a }, none)
  else
    let r := s.source.seekResponse acc
    (s.showTransaction { op := .seek, addr := a } (.seek r), some r)

/-- The access the current phase makes and the request it presents (R66, R140, R151, R160); none in the
phases that issue no transaction (R245). -/
def Block.request? (b : Block) : Option (Access × SrcRequest) :=
  match b.phase with
  | .hdr => some (.hdr, { op := .read, addr := b.pos })
  | .seek => some (.seek, { op := .seek, addr := gfxBase b.pbc })
  | .tread => some (.tile b.tidx.toNat, { op := .read, addr := b.pos })
  | .idle => none
  | .magic => none
  | .counts => none
  | .gfxchk => none
  | .tdec => none
  | .done => none
  | .error => none

/-- Error entry, `raise K(phase, tile, fcode)` (R210). -/
def Block.raise (b : Block) (k : ErrorKind) (phase : ErrorPhase) (tile : TileIdx) (fcode : Byte) : Block :=
  { b with
    ecode := k
    ephase := phase
    etile := tile
    esrc := fcode
    tilecount := 0
    state := .error
    phase := .error }

/-- What an accepted START writes (R121). There is no return from an error: this and reset are the only
ways to leave one (R212). -/
def Block.startRun (b : Block) : Block :=
  { b with
    state := .busy
    phase := .hdr
    pos := 0
    bank := 0
    tib := 0
    tidx := 0
    pbc := 0
    gbc := 0
    tilecount := 0
    ecode := .none
    ephase := .none
    etile := 0
    esrc := 0
    rej := false }

/-- Completion with `n` tiles (R162). -/
def Block.complete (b : Block) (n : TileIdx) : Block :=
  { b with tilecount := n, state := .done, phase := .done }

/-- `TS[t] <- w` (R68); none when the entry does not exist (log 13). -/
def Block.storeTile (b : Block) (t : TileIdx) (w : Entry) : Option Block :=
  if t.toNat < Config.tileStoreSize then some { b with ts := b.ts.write t.toNat w } else none

/-- `TS[t]`; none when the entry does not exist (log 13). -/
def Block.loadTile (b : Block) (t : TileIdx) : Option Entry :=
  if t.toNat < Config.tileStoreSize then some (b.ts.read t.toNat) else none

/-- TROW: the row word selected by TSEL when STATE is DONE and TILE is below TILECOUNT, else 0 (R127). -/
def Block.trow (b : Block) : Option Word :=
  if b.state = .done ∧ b.selTile < b.tilecount then
    (b.loadTile b.selTile).map fun e => (e.extractLsb' (16 * b.selRow.toNat) 16).setWidth 32
  else some 0

/-- ERRHDRq: four header bytes, the lowest address in the low byte, while ECODE is INVALID_FORMAT (R129). -/
def Block.errHdr (b : Block) (q : Fin 4) : Word :=
  if b.ecode = .invalidFormat then
    b.hdr[4 * q.val + 3] ++ b.hdr[4 * q.val + 2] ++ b.hdr[4 * q.val + 1] ++ b.hdr[4 * q.val]
  else 0

/-- The register map for reads (R39, R40, R100, R124, R127 to R130); none only where TROW selects an
entry that does not exist. -/
def Block.readReg (b : Block) (n : BitVec 5) : Option Word :=
  match n.toNat with
  | 1 => some b.statusWord
  | 2 => some b.errWord
  | 3 => some (b.etile.setWidth 32)
  | 4 => some (b.esrc.setWidth 32)
  | 5 => some (b.tilecount.setWidth 32)
  | 6 => some (0#16 ++ b.gbc ++ b.pbc)
  | 7 => some (b.tsel.setWidth 32)
  | 8 => b.trow
  | 12 => some (b.errHdr 0)
  | 13 => some (b.errHdr 1)
  | 14 => some (b.errHdr 2)
  | 15 => some (b.errHdr 3)
  | 16 => some (palette 0)
  | 17 => some (palette 1)
  | 18 => some (palette 2)
  | 19 => some (palette 3)
  | _ => some 0

end Sys2Proof.Machine
end

