-- ==== Sys2Proof/Machine/BankAddress.lean ====
section
/-!
DEFINITION. The graphics-bank address calculator (spec/42_bank_address.md): BANK_SEEK (R151).
-/

namespace Sys2Proof.Machine

/-- What BANK_SEEK does with the response (R151): the seek itself never raises TRUNCATED_INPUT. -/
def Block.takeSeek (b : Block) (a : SrcAddr) (r : SeekResponse) : Block :=
  if r.fail then b.raise .sourceFailure .seek 0 r.fcode
  else { b with pos := a, phase := .tread }

/-- BANK_SEEK (R151): `SrcSeek(gfx_base(PBC))` as access SEEK, for every PBC. -/
def execBankSeek (s : State) : Host.Outcome State Fault Refusal :=
  match s.srcSeek (some .seek) (gfxBase s.block.pbc) with
  | (t, some r) => .next (t.withBlock (s.block.takeSeek (gfxBase s.block.pbc) r))
  | (t, none) => .next t

end Sys2Proof.Machine
end

