-- ==== Sys2Proof/Machine/Header.lean ====
section
/-!
DEFINITION. The header validator (spec/41_header_validation.md): HDR_READ (R140), MAGIC_CHECK (R141),
COUNT_LATCH (R142), GFX_CHECK (R143).
-/

namespace Sys2Proof.Machine

/-- What HDR_READ does with the response, FAIL first (R64, R140). -/
def Block.takeHeader (b : Block) (r : ReadResponse) : Block :=
  if r.fail then b.raise .sourceFailure .headerRead 0 r.fcode
  else if r.count = 16#5 then { b with hdr := r.data, pos := b.pos + 16, phase := .magic }
  else b.raise .truncatedInput .headerRead 0 0

/-- HDR_READ (R140): `SrcRead16(POS)` as access HDR; while the source does not answer nothing changes (R247). -/
def execHdrRead (s : State) : Host.Outcome State Fault Refusal :=
  match s.srcRead16 (some .hdr) s.block.pos with
  | (t, some r) => .next (t.withBlock (s.block.takeHeader r))
  | (t, none) => .next t

/-- The comparison of all four magic bytes, in address order (R91). -/
def magicMatches (h : Bytes16) : Bool :=
  h[0] == Config.magic[0] && h[1] == Config.magic[1] && h[2] == Config.magic[2] && h[3] == Config.magic[3]

/-- MAGIC_CHECK (R141). -/
def execMagicCheck (s : State) : Host.Outcome State Fault Refusal :=
  if magicMatches s.block.hdr then .next (s.quiet.withBlock { s.block with phase := .counts })
  else .next (s.quiet.withBlock (s.block.raise .invalidFormat .none 0 0))

/-- COUNT_LATCH (R142). -/
def execCountLatch (s : State) : Host.Outcome State Fault Refusal :=
  .next (s.quiet.withBlock
    { s.block with pbc := s.block.hdr[4], gbc := s.block.hdr[5], phase := .gfxchk })

/-- GFX_CHECK (R143). -/
def execGfxCheck (s : State) : Host.Outcome State Fault Refusal :=
  if s.block.gbc = 0 then
    .next (s.quiet.withBlock (s.block.raise .unsupportedGraphicsStorage .none 0 0))
  else .next (s.quiet.withBlock { s.block with phase := .seek })

end Sys2Proof.Machine
end

