-- ==== Sys2Proof/Machine/HostAccess.lean ====
section
/-!
DEFINITION. The host's operations (spec/40_host_interface.md): START accepted and rejected (R121, R122),
RDREG (R124), WRTSEL (R126), RDROW (R127), and the writes that are no row of the table, the reserved
command (R123) and the ignored write (R125).
-/

namespace Sys2Proof.Machine

/-- START: rejected while BUSY (R122), accepted in every other STATE (R121). `h_wdata[31:8]` is ignored. -/
def execStart (_x : BitVec 24) (s : State) : Host.Outcome State Fault Refusal :=
  if s.block.state = .busy then .next (s.quiet.withBlock s.block.reject)
  else .next (s.quiet.withBlock s.block.startRun)

/-- RDREG (R124): the register's value is answered and nothing changes (R40). -/
def execRdreg (n : BitVec 5) (s : State) : Host.Outcome State Fault Refusal :=
  match s.block.readReg n with
  | some v => .next (s.showRead v)
  | none => .fault .noSuchTileEntry

/-- WRTSEL: `TSEL <- value[19:0]` (R126). `h_wdata[31:20]` is ignored. -/
def execWrtsel (_x : BitVec 12) (row : BitVec 3) (tile : TileIdx) (s : State) :
    Host.Outcome State Fault Refusal :=
  .next (s.quiet.withBlock { s.block with tsel := row ++ tile })

/-- RDROW (R127): the read of TROW. -/
def execRdrow (s : State) : Host.Outcome State Fault Refusal :=
  match s.block.trow with
  | some v => .next (s.showRead v)
  | none => .fault .noSuchTileEntry

/-- A reserved command code: `REJ <- 1`, nothing else, in every STATE (R123). -/
def execReservedCommand (s : State) : Host.Outcome State Fault Refusal :=
  .next (s.quiet.withBlock s.block.reject)

/-- A write to a read-only or reserved index: no state changes (R125). -/
def execIgnoredWrite (s : State) : Host.Outcome State Fault Refusal :=
  .next s.quiet

end Sys2Proof.Machine
end

