-- ==== Sys2Proof/Machine/TileFetch.lean ====
section
/-!
DEFINITION. The read half of the tile loop (spec/43_tile_fetch.md): TILE_READ (R160).
-/

namespace Sys2Proof.Machine

/-- The five outcomes of TILE_READ in the order of R64 (R160): failure, past the end, a full read, a
clean end of data, an end partway through the tile. -/
def Block.takeTile (b : Block) (r : ReadResponse) : Block :=
  if r.fail then b.raise .sourceFailure .tileRead b.tidx r.fcode
  else if r.past then b.raise .truncatedInput .tileRead b.tidx 0
  else if r.count = 16#5 then { b with tbuf := r.data, pos := b.pos + 16, phase := .tdec }
  else if r.count = 0#5 then b.complete b.tidx
  else b.raise .truncatedInput .tileRead b.tidx 0

/-- TILE_READ (R160): `SrcRead16(POS)` as access TILE TIDX. -/
def execTileRead (s : State) : Host.Outcome State Fault Refusal :=
  match s.srcRead16 (some (.tile s.block.tidx.toNat)) s.block.pos with
  | (t, some r) => .next (t.withBlock (s.block.takeTile r))
  | (t, none) => .next t

end Sys2Proof.Machine
end

