-- ==== Sys2Proof/Machine/SourcePort.lean ====
section
/-!
DEFINITION. The two source-port transactions (spec/20_memory.md): SRC_READ (R63) and SRC_SEEK (R65). Only
the sequencer issues them (R62), one at a time (R67, R236), and the phase step that issues one completes
with its answer (R236). What they are when no phase presents them is the model's choice: DESIGN CHOICE, log 9.
-/

namespace Sys2Proof.Machine

/-- Which access of the run a request is (R66): the one the current phase makes when it is the request
that phase presents, else none. -/
def Block.accessOf (b : Block) (q : SrcRequest) : Option Access :=
  match b.request? with
  | some (acc, p) => if q = p then some acc else none
  | none => none

/-- Whether the source port is not free for a request that no phase presents: the source is the run's own
from START until STATE leaves BUSY (R241), and a request is held until it is answered (R236, R247). -/
def State.sourceInUse (s : State) : Bool := s.block.state == .busy || s.ports.srcPending.isSome

/-- What the phase step that makes the access `acc` does with the response to its read (R140, R160). The
access SEEK makes no read. -/
def Block.takeRead (b : Block) (acc : Access) (r : ReadResponse) : Block :=
  match acc with
  | .hdr => b.takeHeader r
  | .tile _ => b.takeTile r
  | .seek => b

/-- SRC_READ (R63). The read that the current phase presents is that phase's own: its answer completes the
phase step (R236). A read that no phase presents has no effect beyond the response shown on the port (R72),
and no move at all while the port is in use (R67, R243). -/
def execSrcRead (a : SrcAddr) (s : State) : Host.Outcome State Fault Refusal :=
  match s.block.accessOf { op := .read, addr := a } with
  | some acc =>
    match s.srcRead16 (some acc) a with
    | (t, some r) => .next (t.withBlock (s.block.takeRead acc r))
    | (t, none) => .next t
  | none => if s.sourceInUse then .fault .sourceInUse else .next (s.srcRead16 none a).1

/-- SRC_SEEK (R65). The seek that P_SEEK presents is BANK_SEEK's own: its answer completes that step (R236).
A seek that no phase presents is as such a read. -/
def execSrcSeek (a : SrcAddr) (s : State) : Host.Outcome State Fault Refusal :=
  match s.block.accessOf { op := .seek, addr := a } with
  | some acc =>
    match s.srcSeek (some acc) a with
    | (t, some r) => .next (t.withBlock (s.block.takeSeek a r))
    | (t, none) => .next t
  | none => if s.sourceInUse then .fault .sourceInUse else .next (s.srcSeek none a).1

end Sys2Proof.Machine
end

