-- ==== Sys2Proof/Machine/TileUnpack.lean ====
section
/-!
DEFINITION. The planar-bitmap tile unpacker (spec/44_tile_unpack.md): TILE_DECODE (R184) and the
stand-alone port UNPACK (R185). The functions they share are in Machine/Operands.lean.
-/

namespace Sys2Proof.Machine

/-- The loop control of TILE_DECODE (R184), from the values before the step: `b` is the block with the
tile stored. -/
def Block.advanceTile (b : Block) : Block :=
  if b.tib = 511#9 then
    if b.bank.toNat + 1 = b.gbc.toNat then
      { b.complete (b.tidx + 1) with tidx := b.tidx + 1, tib := 0, bank := b.bank + 1 }
    else { b with tidx := b.tidx + 1, tib := 0, bank := b.bank + 1, phase := .tread }
  else { b with tidx := b.tidx + 1, tib := b.tib + 1, phase := .tread }

/-- TILE_DECODE (R184): `TS[TIDX] <- entry(TBUF)`, then the loop advances. -/
def execTileDecode (s : State) : Host.Outcome State Fault Refusal :=
  match s.block.storeTile s.block.tidx (entry s.block.tbuf) with
  | some b => .next (s.quiet.withBlock b.advanceTile)
  | none => .fault .noSuchTileEntry

/-- UNPACK (R185): `ut_in` is driven and `ut_out = entry(ut_in)`; the port shares no state with the block. -/
def execUnpack (b : BitVec 128) (s : State) : Host.Outcome State Fault Refusal :=
  .next { s.quiet with ports := { s.quiet.ports with utIn := b, utOut := entry (bytesOfBus b) } }

end Sys2Proof.Machine
end

