-- ==== Sys2Proof/Machine/Dispatch.lean ====
section
/-! DEFINITION. The dispatch of the fourteen operations to their meanings (spec/30_encoding.md rule R103). -/

namespace Sys2Proof.Machine

def exec (i : Instr) (s : State) : Host.Outcome State Fault Refusal :=
  match i with
  -- host commands and register accesses
  | .start x => Sys2Proof.Machine.execStart x s
  | .rdreg n => Sys2Proof.Machine.execRdreg n s
  | .wrtsel x row tile => Sys2Proof.Machine.execWrtsel x row tile s
  | .rdrow => Sys2Proof.Machine.execRdrow s
  -- sequencer phase steps
  | .hdrRead => Sys2Proof.Machine.execHdrRead s
  | .magicCheck => Sys2Proof.Machine.execMagicCheck s
  | .countLatch => Sys2Proof.Machine.execCountLatch s
  | .gfxCheck => Sys2Proof.Machine.execGfxCheck s
  | .bankSeek => Sys2Proof.Machine.execBankSeek s
  | .tileRead => Sys2Proof.Machine.execTileRead s
  | .tileDecode => Sys2Proof.Machine.execTileDecode s
  -- source-port transactions
  | .srcRead a => Sys2Proof.Machine.execSrcRead a s
  | .srcSeek a => Sys2Proof.Machine.execSrcSeek a s
  -- the combinational unpack port
  | .unpack b => Sys2Proof.Machine.execUnpack b s

end Sys2Proof.Machine
end

