-- ==== Sys2Proof/Machine/Environment.lean ====
section
/-!
DEFINITION. The steps that are no row of the table: reset (spec/70_reset_and_hazards.md rules R230,
R232), attaching a source (R233, R241), waiting (spec/30_encoding.md R104), and what a word that selects
no operation does (R105). Log 11.
-/

namespace Sys2Proof.Machine

/-- RESET (R230): every register takes its value of R45 from any phase; an outstanding transaction is
abandoned and its request falls (R232). The source and the unpack port are not the block's to reset. -/
def execReset (s : State) : Host.Outcome State Fault Refusal :=
  .next { s.quiet with block := Block.reset, ports := { s.quiet.ports with srcPending := none } }

/-- Attaching a source (R233): allowed whenever no run is in progress; during a run it is outside the
model (R241). -/
def execAttach (src : Source) (s : State) : Host.Outcome State Fault Refusal :=
  if s.block.state = .busy then .fault .sourceChangedDuringRun
  else .next { s.quiet with source := src }

/-- P_IDLE, P_DONE and P_ERROR have no step: the sequencer waits (R104, R231). DESIGN CHOICE, log 7. -/
def execIdle (s : State) : Host.Outcome State Fault Refusal :=
  .next s.quiet

/-- What a word that selects no operation does (R105). -/
def execUnselected (e : DecodeError) (s : State) : Host.Outcome State Fault Refusal :=
  match e with
  | .reservedCommand _ => execReservedCommand s
  | .ignoredWrite _ => execIgnoredWrite s
  | .idlePhase _ => execIdle s
  | .unreachablePhase _ => .fault .noSuchOperation
  | .wrongDirection => .fault .noSuchOperation

end Sys2Proof.Machine
end

