-- ==== Sys2Proof/Machine/Fetch.lean ====
section
/-!
DEFINITION. What the next step takes up (spec/20_memory.md rule R75: host accesses and phase steps
interleave freely). The block fetches no instructions (R43, R78): a word is formed by the pins of an
agent's action (spec/70_reset_and_hazards.md R236) or by the register PHASE (spec/30_encoding.md R104).
-/

namespace Sys2Proof.Machine

/-- The word on the host port: HOSTW when `h_we` is 1, HOSTR when it is 0 (R103, R236). -/
def hostWord (we : Bool) (idx : BitVec 5) (wdata : Word) : PortWord :=
  if we then .hostW (1#1 ++ idx ++ wdata) else .hostR (0#1 ++ idx)

/-- The word on the source port (R101, R103). -/
def sourceWord (op : Bool) (addr : SrcAddr) : PortWord := .srcReq (BitVec.ofBool op ++ addr)

/-- What one input presents, in a machine whose PHASE is `p`. -/
def Input.present (p : Phase) : Input → Fetched
  | .sequencer => .word (.phase p.code)
  | .host we idx wdata => .word (hostWord we idx wdata)
  | .sourcePort op addr => .word (sourceWord op addr)
  | .unpackPort b => .word (.comb b)
  | .reset => .reset
  | .attach src => .attach src

/-- What the next step takes up, and the machine with that input consumed: the oldest input, or the
phase step when nothing is listed (log 5). -/
def State.fetch (s : State) : Fetched × State :=
  match s.inputs with
  | [] => (.word (.phase s.block.phase.code), s)
  | i :: rest => (i.present s.block.phase, { s with inputs := rest })

/-- The machine with the word `p` placed where the next step takes it up: an action of the agent on that
port before all others, or, for a PHASE word, PHASE itself (and STATE, which is a function of it, R22)
with the sequencer's turn first. A word that no pins and no PHASE can form (HOSTW with `h_we = 0`, HOSTR with
`h_we = 1`, PHASE codes 10 to 15) is no word of R103 and places nothing. DESIGN CHOICE, log 15. -/
def State.placeWord (s : State) (p : PortWord) : State :=
  match p with
  | .hostW w =>
    if w.getLsbD 37 then
      { s with inputs := .host true (w.extractLsb' 32 5) (w.extractLsb' 0 32) :: s.inputs }
    else s
  | .hostR w =>
    if w.getLsbD 5 then s else { s with inputs := .host false (w.extractLsb' 0 5) 0 :: s.inputs }
  | .phase w =>
    match Phase.ofCode w with
    | some p =>
      { s with
        block := { s.block with phase := p, state := p.runState }
        inputs := .sequencer :: s.inputs }
    | none => s
  | .srcReq w => { s with inputs := .sourcePort (w.getLsbD 23) (w.extractLsb' 0 23) :: s.inputs }
  | .comb w => { s with inputs := .unpackPort w :: s.inputs }

end Sys2Proof.Machine
end

