-- ==== Sys2Proof/Machine/Step.lean ====
section
/-!
DEFINITION. One step of the machine: what is next in order is taken up, decoded and run
(spec/20_memory.md rule R75, spec/30_encoding.md R103 and R104). A step ends in a next state, in a named
fault or in a refusal. And the host's way of placing one operation's word where the next step takes it up.
-/

namespace Sys2Proof.Machine

/-- Run what was taken up in the machine `s` it left. A phase step's word is PHASE itself, so here its meaning
runs in its own phase; taken elsewhere, `exec` applies the rule's pseudocode to the block it is given (log 14). -/
def runFetched (f : Fetched) (s : State) : Host.Outcome State Fault Refusal :=
  match f with
  | .word w =>
    match decode w with
    | .ok i => exec i s
    | .error e => execUnselected e s
  | .reset => execReset s
  | .attach src => execAttach src s

/-- One step (R75). -/
def step (s : State) : Host.Outcome State Fault Refusal :=
  runFetched s.fetch.1 s.fetch.2

/-- The machine with an operation's word placed where `step` takes it up, numbered as
spec/opcode_table.json numbers it (log 15). -/
def State.withFetchWord (s : State) (nbits w : Nat) : State :=
  match PortWord.ofTable nbits w with
  | some p => s.placeWord p
  | none => s

end Sys2Proof.Machine
end

