-- ==== Sys2Proof/Safety.lean ====
section
/-!
DEFINITION. The terms the claims use: the invariants of every reachable state (spec/10_state.md rule
R41 and what rules R22 to R37, R99, R144 say beside it), what a step leaves alone, and the outcome of a
whole run as one function of the source (spec/43_tile_fetch.md R163), written from that rule and not
from the machine.
-/

namespace Sys2Proof.Machine

/-- The phases before the tile loop (R104). -/
def Phase.inHeader : Phase → Bool
  | .hdr => true
  | .magic => true
  | .counts => true
  | .gfxchk => true
  | .seek => true
  | _ => false

/-- The phases in which POS is 16 (R41 (d)). -/
def Phase.afterHeader : Phase → Bool
  | .magic => true
  | .counts => true
  | .gfxchk => true
  | .seek => true
  | _ => false

/-- The phases of the tile loop. -/
def Phase.inLoop : Phase → Bool
  | .tread => true
  | .tdec => true
  | _ => false

/-- The phases of a run in which the magic has been checked (R141). -/
def Phase.magicPassed : Phase → Bool
  | .counts => true
  | .gfxchk => true
  | .seek => true
  | .tread => true
  | .tdec => true
  | _ => false

/-- The phases of a run in which the counts have been latched (R142). -/
def Phase.countsLatched : Phase → Bool
  | .gfxchk => true
  | .seek => true
  | .tread => true
  | .tdec => true
  | _ => false

/-- The pairs of ECODE and EPHASE that the error table has, and no error (R99, R200). -/
def legalErrors : List (ErrorKind × ErrorPhase) :=
  [(.none, .none), (.truncatedInput, .headerRead), (.truncatedInput, .tileRead), (.invalidFormat, .none),
    (.unsupportedGraphicsStorage, .none), (.sourceFailure, .headerRead), (.sourceFailure, .seek),
    (.sourceFailure, .tileRead)]

/-- What holds of the block's registers in every reachable state, whatever the source. -/
structure Block.Legal (b : Block) : Prop where
  /-- R41 (a), R22. -/
  state_of_phase : b.state = b.phase.runState
  /-- R41 (b). -/
  tidx_eq : b.tidx.toNat = 512 * b.bank.toNat + b.tib.toNat
  /-- R27, R7. -/
  tidx_le : b.tidx.toNat ≤ Config.tileStoreSize
  /-- R43, R71. -/
  pos_aligned : b.pos.toNat % 16 = 0
  /-- R24, R7. -/
  pos_le : b.pos.toNat ≤ 6266896
  /-- R140: POS is 0 in P_HDR. -/
  pos_hdr : b.phase = .hdr → b.pos = 0
  /-- R41 (d). -/
  pos_afterHeader : b.phase.afterHeader = true → b.pos = 16
  /-- R41 (c). -/
  pos_tread : b.phase = .tread → b.pos.toNat = 16 + b.pbc.toNat * 16384 + 16 * b.tidx.toNat
  /-- R41 (c). -/
  pos_tdec : b.phase = .tdec → b.pos.toNat = 16 + b.pbc.toNat * 16384 + 16 * (b.tidx.toNat + 1)
  /-- R151: the loop registers are still 0 before the loop. -/
  loop_zero : b.phase.inHeader = true → b.tidx = 0 ∧ b.bank = 0 ∧ b.tib = 0
  /-- R41 (e). -/
  loop_bound : b.phase.inLoop = true →
    1 ≤ b.gbc.toNat ∧ b.bank.toNat < b.gbc.toNat ∧ b.tidx.toNat < 512 * b.gbc.toNat
  /-- R141: the counts are still 0. -/
  counts_unlatched : b.phase = .hdr ∨ b.phase = .magic → b.pbc = 0 ∧ b.gbc = 0
  /-- R143, R144. -/
  gbc_seek : b.phase = .seek → b.gbc ≠ 0
  /-- R41 (f). -/
  tilecount_done : b.tilecount ≠ 0 → b.state = .done
  /-- R162. -/
  tilecount_eq : b.state = .done → b.tilecount = b.tidx
  /-- R41 (f). -/
  ecode_error : b.ecode ≠ .none ↔ b.state = .error
  /-- R99. -/
  errors_legal : (b.ecode, b.ephase) ∈ legalErrors
  /-- R34. -/
  etile_zero : b.ephase ≠ .tileRead → b.etile = 0
  /-- R35. -/
  esrc_zero : b.ecode ≠ .sourceFailure → b.esrc = 0
  /-- The tile store keeps its canonical form. -/
  ts_wf : b.ts.wf = true
  /-- The tile store holds only entries that exist (R37). -/
  ts_below : b.ts.below Config.tileStoreSize = true

/-- The offset of the graphics region for a program-bank count (R150), as a number. -/
def regionBase (p : Byte) : Nat := 16 + p.toNat * 16384

/-- What the registers hold of the source while a run is in progress (R41 (g), R144, R160). -/
structure State.RunData (s : State) : Prop where
  /-- R140. -/
  header : s.block.phase.afterHeader = true ∨ s.block.phase.inLoop = true →
    16 ≤ s.source.image.len ∧ s.block.hdr = s.source.image.bytes16 0
  /-- R141. -/
  magic : s.block.phase.magicPassed = true →
    s.block.hdr[0] = 0x4E ∧ s.block.hdr[1] = 0x45 ∧ s.block.hdr[2] = 0x53 ∧ s.block.hdr[3] = 0x1A
  /-- R142. -/
  counts : s.block.phase.countsLatched = true →
    s.block.pbc = s.source.image.byte 4 ∧ s.block.gbc = s.source.image.byte 5
  /-- R160 (a): only the first tile read can start past the end. -/
  within : s.block.phase = .tread → s.block.tidx ≠ 0 →
    regionBase s.block.pbc + 16 * s.block.tidx.toNat ≤ s.source.image.len
  /-- R31, R160: TBUF holds the tile just read in full. -/
  tile : s.block.phase = .tdec →
    regionBase s.block.pbc + 16 * (s.block.tidx.toNat + 1) ≤ s.source.image.len ∧
      s.block.tbuf = s.source.image.bytes16 (regionBase s.block.pbc + 16 * s.block.tidx.toNat)
  /-- R41 (g) while BUSY. -/
  stored : s.block.phase.inLoop = true → ∀ t < s.block.tidx.toNat,
    s.block.ts.read t = entry (s.source.image.bytes16 (regionBase s.block.pbc + 16 * t))

/-- What holds of the ports in every reachable state. -/
structure State.PortsLegal (s : State) : Prop where
  /-- R185: at all times. -/
  unpack : s.ports.utOut = entry (bytesOfBus s.ports.utIn)
  /-- R247: a request is held only while the phase that presents it waits for a source that stalls it. -/
  pending : ∀ q, s.ports.srcPending = some q →
    ∃ acc, s.block.request? = some (acc, q) ∧ s.source.stalls (some acc) = true

/-- Attached sources come in canonical form. -/
def Input.wf : Input → Bool
  | .attach src => src.wf
  | .sequencer => true
  | .host _ _ _ => true
  | .sourcePort _ _ => true
  | .unpackPort _ => true
  | .reset => true

/-- The invariant of the machine. -/
structure State.Inv (s : State) : Prop where
  legal : s.block.Legal
  data : s.RunData
  ports : s.PortsLegal
  source_wf : s.source.wf = true
  inputs_wf : s.inputs.all Input.wf = true

/-- Everything outside the block's registers and the source port that an operation of the block or of
the host leaves alone: the source, what comes in next, and the unpack port. -/
def State.SameSurroundings (s t : State) : Prop :=
  t.source = s.source ∧ t.inputs = s.inputs ∧ t.ports.utIn = s.ports.utIn ∧ t.ports.utOut = s.ports.utOut

/-- A step that reads no register and issues no source transaction. -/
def State.NoTraffic (s t : State) : Prop :=
  t.ports.hRdata = none ∧ t.ports.srcDone = none ∧ t.ports.srcPending = s.ports.srcPending ∧
    t.freeNext = s.freeNext

/-- Error entry, from R210: the record written, STATE and PHASE moved, TILECOUNT 0, all else kept. -/
def Block.withError (b : Block) (k : ErrorKind) (p : ErrorPhase) (tile : TileIdx) (code : Byte) : Block :=
  { b with
    ecode := k
    ephase := p
    etile := tile
    esrc := code
    tilecount := 0
    state := .error
    phase := .error }

/-- The edges of the control-transfer table that a phase step can take (R104). -/
def phaseEdges : List (Phase × Phase) :=
  [(.hdr, .magic), (.hdr, .error), (.magic, .counts), (.magic, .error), (.counts, .gfxchk), (.gfxchk, .seek),
    (.gfxchk, .error), (.seek, .tread), (.seek, .error), (.tread, .tdec), (.tread, .done), (.tread, .error),
    (.tdec, .tread), (.tdec, .done)]

/-- The next step is the sequencer's: its turn, or the transaction that its phase presents (R236). -/
def State.SequencerNext (s : State) : Prop :=
  s.inputs = [] ∨ s.inputs.head? = some .sequencer ∨
    ∃ op a, s.inputs.head? = some (.sourcePort op a) ∧
      (s.block.accessOf { op := if op then .seek else .read, addr := a }).isSome = true

/-- The response R63 gives a read at `a` as access `acc`, all but the bytes it leaves unspecified. -/
def ReadResponse.Answers (r : ReadResponse) (src : Source) (acc : Option Access) (a : SrcAddr) : Prop :=
  (∀ c, src.failCode acc = some c → r.fail = true ∧ r.fcode = c) ∧
    (src.failCode acc = none →
      r.fail = false ∧ r.fcode = 0 ∧ (r.past = true ↔ src.image.len < a.toNat) ∧
        r.count.toNat = min 16 (src.image.len - a.toNat) ∧
        ∀ m : Fin 16, m.val < r.count.toNat → r.data[m.val] = src.image.byte (a.toNat + m.val))

/-- The response R65 gives a seek as access `acc`. -/
def SeekResponse.Answers (r : SeekResponse) (src : Source) (acc : Option Access) : Prop :=
  (∀ c, src.failCode acc = some c → r.fail = true ∧ r.fcode = c) ∧
    (src.failCode acc = none → r.fail = false ∧ r.fcode = 0)

/-- The next step is a write of `START` to CMD (R97). -/
def State.StartNext (s : State) : Prop :=
  ∃ v : Word, s.inputs.head? = some (.host true 0 v) ∧ v.extractLsb' 0 8 = 0x01#8

/-- A run has ended (R246). -/
def Block.ended (b : Block) : Prop := b.state = .done ∨ b.state = .error

/-- The ways a run ends (R163): the error recorded, or the number of tiles of the sequence. -/
inductive RunEnd where
  | error (kind : ErrorKind) (phase : ErrorPhase) (tile : Nat) (code : Byte)
  | done (count : Nat)
deriving DecidableEq, Repr

/-- Cases 6 to 9 of R163 at tile `t`; none when the tile is stored and the run goes on. -/
def Source.endAtTile (src : Source) (t : Nat) : Option RunEnd :=
  match src.fail.code? (.tile t) with
  | some c => some (.error .sourceFailure .tileRead t c)
  | none =>
    if src.image.len < regionBase (src.image.byte 4) + 16 * t then
      some (.error .truncatedInput .tileRead t 0)
    else if regionBase (src.image.byte 4) + 16 * t = src.image.len then some (.done t)
    else if src.image.len < regionBase (src.image.byte 4) + 16 * t + 16 then
      some (.error .truncatedInput .tileRead t 0)
    else none

/-- Cases 6 to 10 of R163 from tile `t` on, with `n` tiles left of the declared banks. -/
def Source.endFromTile (src : Source) : Nat → Nat → RunEnd
  | 0, t => .done t
  | n + 1, t =>
    match src.endAtTile t with
    | some e => e
    | none => src.endFromTile n (t + 1)

/-- `SRC[0..3] = 4E 45 53 1A` (R91). -/
def Image.hasMagic (img : Image) : Bool :=
  img.byte 0 == 0x4E && img.byte 1 == 0x45 && img.byte 2 == 0x53 && img.byte 3 == 0x1A

/-- The outcome of a run over a source that answers: the first case of R163 that applies. -/
def Source.runEnd (src : Source) : RunEnd :=
  match src.fail.code? .hdr with
  | some c => .error .sourceFailure .headerRead 0 c
  | none =>
    if src.image.len < 16 then .error .truncatedInput .headerRead 0 0
    else if src.image.hasMagic = false then .error .invalidFormat .none 0 0
    else if src.image.byte 5 = 0 then .error .unsupportedGraphicsStorage .none 0 0
    else
      match src.fail.code? .seek with
      | some c => .error .sourceFailure .seek 0 c
      | none => src.endFromTile (512 * (src.image.byte 5).toNat) 0

/-- Whether the run reached COUNT_LATCH (R163: BANKS is 0 in cases 1 to 3 and latched from case 4 on). -/
def RunEnd.latched : RunEnd → Bool
  | .error _ .headerRead _ _ => false
  | .error .invalidFormat _ _ _ => false
  | _ => true

/-- The block shows the end `e` of a run over `src` (R163, R246). -/
def Block.ShowsEnd (b : Block) (src : Source) (e : RunEnd) : Prop :=
  (match e with
    | .error k p t c =>
      b.state = .error ∧ b.phase = .error ∧ b.ecode = k ∧ b.ephase = p ∧ b.etile.toNat = t ∧ b.esrc = c ∧
        b.tilecount = 0 ∧ (k = .invalidFormat → b.hdr = src.image.bytes16 0)
    | .done n =>
      b.state = .done ∧ b.phase = .done ∧ b.ecode = .none ∧ b.ephase = .none ∧ b.etile = 0 ∧ b.esrc = 0 ∧
        b.tilecount.toNat = n ∧
        ∀ t < n, b.ts.read t =
          entry (src.image.bytes16 (regionBase (src.image.byte 4) + 16 * t))) ∧
    b.pbc = (if e.latched then src.image.byte 4 else 0) ∧
    b.gbc = (if e.latched then src.image.byte 5 else 0)

/-- Two blocks are at the same point of a run over one source: every register a run writes agrees, HDR
and TBUF once the run has filled them, and the tiles published (R121, R163). -/
structure Block.SamePoint (b c : Block) : Prop where
  state : c.state = b.state
  phase : c.phase = b.phase
  rej : c.rej = b.rej
  pos : c.pos = b.pos
  bank : c.bank = b.bank
  tib : c.tib = b.tib
  tidx : c.tidx = b.tidx
  pbc : c.pbc = b.pbc
  gbc : c.gbc = b.gbc
  tilecount : c.tilecount = b.tilecount
  ecode : c.ecode = b.ecode
  ephase : c.ephase = b.ephase
  etile : c.etile = b.etile
  esrc : c.esrc = b.esrc
  errHdr : ∀ q, c.errHdr q = b.errHdr q
  tiles : b.state = .done → ∀ t < b.tilecount.toNat, c.ts.read t = b.ts.read t

end Sys2Proof.Machine
end

