-- ==== Sys2Proof/Certificates/Slice0/Obligations.lean ====
section
/-!
DEFINITION. The statements for the provers, from the numbered rules of spec/. Each says in its docstring
which rules it formalises. `SameSurroundings` and `NoTraffic` (Sys2Proof/Safety.lean) are the frame outside
the block's registers; the registers' frame is the equation for the whole block.
-/

open Sys2Proof Sys2Proof.Machine

/-! ### Host interface (spec/40_host_interface.md) -/

/-- R121: an accepted START writes exactly the listed registers, issues no transaction, and leaves STATUS
reading `0x11`, with no tile, no count and no error readable. -/
def Obligations.StartBeginsARunUnlessBusy : Prop :=
  ∀ (x : BitVec 24) (s : State), s.block.state ≠ .busy →
    ∃ t, exec (.start x) s = .next t ∧
      t.block =
        { s.block with
          state := .busy
          phase := .hdr
          pos := 0
          bank := 0
          tib := 0
          tidx := 0
          pbc := 0
          gbc := 0
          tilecount := 0
          ecode := .none
          ephase := .none
          etile := 0
          esrc := 0
          rej := false } ∧
      t.block.readReg 1 = some 0x11 ∧ t.block.readReg 2 = some 0 ∧ t.block.readReg 5 = some 0 ∧
      t.block.readReg 8 = some 0 ∧ s.SameSurroundings t ∧ s.NoTraffic t

/-- R122: START while BUSY sets REJ and changes nothing else; REJ then stays 1 until reset or an accepted
START. -/
def Obligations.StartWhileBusyOnlySetsRej : Prop :=
  (∀ (x : BitVec 24) (s : State), s.block.state = .busy →
    ∃ t, exec (.start x) s = .next t ∧ t.block = { s.block with rej := true } ∧
      s.SameSurroundings t ∧ s.NoTraffic t) ∧
  (∀ s t : State, step s = .next t → s.block.rej = true → t.block.rej = false →
    s.inputs.head? = some .reset ∨ (s.StartNext ∧ s.block.state ≠ .busy))

/-- R123: a write to CMD with any code but `0x01` sets REJ and changes nothing else, in every STATE; with
the code `0x01` it is START, whatever the ignored bits `[31:8]`. -/
def Obligations.ReservedCommandOnlySetsRej : Prop :=
  ∀ (s : State) (v : Word) (rest : List Input), s.inputs = .host true 0 v :: rest →
    (v.extractLsb' 0 8 ≠ 0x01#8 →
      ∃ t, step s = .next t ∧ t.block = { s.block with rej := true } ∧
        ({ s with inputs := rest } : State).SameSurroundings t ∧ s.NoTraffic t) ∧
    (v.extractLsb' 0 8 = 0x01#8 → step s = exec (.start (v.extractLsb' 8 24)) { s with inputs := rest })

/-- R125: a write to an index other than 0 and 7 changes no state and does not set REJ. -/
def Obligations.OtherWritesChangeNothing : Prop :=
  ∀ (s : State) (idx : BitVec 5) (v : Word) (rest : List Input), s.inputs = .host true idx v :: rest →
    idx ≠ 0 → idx ≠ 7 →
    ∃ t, step s = .next t ∧ t.block = s.block ∧
      ({ s with inputs := rest } : State).SameSurroundings t ∧ s.NoTraffic t

/-- R23: REJ is set by a rejected write to CMD, cleared by reset and by an accepted START, and changed by
nothing else. -/
def Obligations.RejChangesOnlyByCommandOrReset : Prop :=
  ∀ s t : State, step s = .next t →
    t.block.rej =
      match s.inputs.head? with
      | some (.host we idx v) =>
        if we = true ∧ idx = 0 then
          !(v.extractLsb' 0 8 == 0x01#8 && s.block.state != .busy)
        else s.block.rej
      | some .reset => false
      | _ => s.block.rej

/-- R36: TSEL is written by the host's write of index 7 and by reset, and by nothing else. -/
def Obligations.TselChangesOnlyByWriteOrReset : Prop :=
  ∀ s t : State, step s = .next t →
    t.block.tsel =
      match s.inputs.head? with
      | some (.host we idx v) => if we = true ∧ idx = 7 then v.extractLsb' 0 20 else s.block.tsel
      | some .reset => 0
      | _ => s.block.tsel

/-- R124, R120: reading any register answers, changes no register of the block and issues no transaction.
That TILECOUNT is at most the number of entries is the invariant `Block.Legal` (R32). -/
def Obligations.RegisterReadAnswersAndChangesNothing : Prop :=
  ∀ (n : BitVec 5) (s : State), s.block.tilecount.toNat ≤ 130560 →
    ∃ t v, exec (.rdreg n) s = .next t ∧ t.ports.hRdata = some v ∧ s.block.readReg n = some v ∧
      t.block = s.block ∧ s.SameSurroundings t ∧ t.ports.srcDone = none ∧
      t.ports.srcPending = s.ports.srcPending ∧ t.freeNext = s.freeNext

/-- R98: the fields of STATUS, and the only twenty values that can be read. -/
def Obligations.StatusReadsStateRejAndPhase : Prop :=
  ∀ s : State, ∃ t v, exec (.rdreg 1) s = .next t ∧ t.ports.hRdata = some v ∧
    v.extractLsb' 0 2 = s.block.state.code ∧ v.getLsbD 2 = s.block.rej ∧ v.getLsbD 3 = false ∧
    v.extractLsb' 4 4 = s.block.phase.code ∧ v.extractLsb' 8 24 = 0 ∧
    (s.Inv → v ∈ ([0x00, 0x11, 0x21, 0x31, 0x41, 0x51, 0x61, 0x71, 0x82, 0x93,
      0x04, 0x15, 0x25, 0x35, 0x45, 0x55, 0x65, 0x75, 0x86, 0x97] : List Word))

/-- R99: the fields of ERR. That only eight values can be read is R99's own inference from R200 to R204. -/
def Obligations.ErrReadsKindAndPhase : Prop :=
  ∀ s : State, ∃ t v, exec (.rdreg 2) s = .next t ∧ t.ports.hRdata = some v ∧
    v.extractLsb' 0 3 = s.block.ecode.code ∧ v.getLsbD 3 = false ∧
    v.extractLsb' 4 2 = s.block.ephase.code ∧ v.extractLsb' 6 26 = 0 ∧
    (s.Inv → v ∈ ([0x00, 0x11, 0x31, 0x02, 0x03, 0x14, 0x24, 0x34] : List Word))

/-- R100: the fields of the other registers; every bit not named reads 0. ERRHDRq while ECODE is
INVALID_FORMAT (its gate is R129). PALn is `R, G, B, A`, with the values of R38. -/
def Obligations.ReadFormatsOfTheRegisterMap : Prop :=
  ∀ b : Block,
    (∃ v, b.readReg 3 = some v ∧ v.extractLsb' 0 17 = b.etile ∧ v.extractLsb' 17 15 = 0) ∧
    (∃ v, b.readReg 4 = some v ∧ v.extractLsb' 0 8 = b.esrc ∧ v.extractLsb' 8 24 = 0) ∧
    (∃ v, b.readReg 5 = some v ∧ v.extractLsb' 0 17 = b.tilecount ∧ v.extractLsb' 17 15 = 0) ∧
    (∃ v, b.readReg 6 = some v ∧ v.extractLsb' 0 8 = b.pbc ∧ v.extractLsb' 8 8 = b.gbc ∧
      v.extractLsb' 16 16 = 0) ∧
    (∃ v, b.readReg 7 = some v ∧ v.extractLsb' 0 17 = b.selTile ∧ v.extractLsb' 17 3 = b.selRow ∧
      v.extractLsb' 20 12 = 0) ∧
    (∀ v, b.readReg 8 = some v → v.extractLsb' 16 16 = 0 ∧
      (b.state = .done → b.selTile < b.tilecount → ∀ j < 16,
        v.getLsbD j = (b.ts.read b.selTile.toNat).getLsbD (16 * b.selRow.toNat + j))) ∧
    (∀ (q m : Fin 4), b.ecode = .invalidFormat →
      ∃ v, b.readReg (BitVec.ofNat 5 (12 + q.val)) = some v ∧
        v.extractLsb' (8 * m.val) 8 = b.hdr[4 * q.val + m.val]) ∧
    b.readReg 16 = some (0x00#8 ++ 0x00#8 ++ 0x00#8 ++ 0x00#8) ∧
    b.readReg 17 = some (0xFF#8 ++ 0x00#8 ++ 0x00#8 ++ 0xFF#8) ∧
    b.readReg 18 = some (0x00#8 ++ 0xFF#8 ++ 0x00#8 ++ 0xFF#8) ∧
    b.readReg 19 = some (0x00#8 ++ 0x00#8 ++ 0xFF#8 ++ 0xFF#8)

/-- R40, R105: reserved indices and CMD read 0, writes to them and to read-only registers change no register and not
REJ, and no read changes any register. -/
def Obligations.ReservedIndicesReadZeroAndIgnoreWrites : Prop :=
  ∀ s : State,
    (∀ n ∈ ([0, 9, 10, 11, 20, 21, 22, 23, 24, 25, 26, 27, 28, 29, 30, 31] : List (BitVec 5)),
      ∃ t, exec (.rdreg n) s = .next t ∧ t.ports.hRdata = some 0) ∧
    (∀ (n : BitVec 5) (t : State), exec (.rdreg n) s = .next t → t.block = s.block) ∧
    (∀ t, exec .rdrow s = .next t → t.block = s.block) ∧
    (∀ (n : BitVec 5) (v : Word) (rest : List Input), s.inputs = .host true n v :: rest → n ≠ 0 → n ≠ 7 →
      ∃ t, step s = .next t ∧ t.block = s.block)

/-- R126: WRTSEL writes TSEL with TILE and ROW and nothing else, whatever the ignored bits; the read of
index 7 then answers them with the top twelve bits 0. Only reset and another WRTSEL change TSEL. -/
def Obligations.WrtselSelectsTileAndRow : Prop :=
  (∀ (x : BitVec 12) (row : BitVec 3) (tile : TileIdx) (s : State),
    ∃ t, exec (.wrtsel x row tile) s = .next t ∧ t.block = { s.block with tsel := t.block.tsel } ∧
      t.block.selTile = tile ∧ t.block.selRow = row ∧
      t.block.readReg 7 = some (0#12 ++ row ++ tile) ∧ s.SameSurroundings t ∧ s.NoTraffic t) ∧
  (∀ s t : State, step s = .next t → t.block.tsel ≠ s.block.tsel →
    s.inputs.head? = some .reset ∨ ∃ v : Word, s.inputs.head? = some (.host true 7 v))

/-- R127, R69: in DONE with TILE below TILECOUNT the read of TROW answers the selected row word,
zero-extended; in every other case it answers 0; it changes nothing. That TILECOUNT is at most the number
of entries is the invariant `Block.Legal` (R32). -/
def Obligations.RdrowAnswersTheSelectedRowOrZero : Prop :=
  (∀ s : State, s.block.state = .done → s.block.selTile < s.block.tilecount →
    s.block.tilecount.toNat ≤ 130560 →
    ∃ t v, exec .rdrow s = .next t ∧ t.ports.hRdata = some v ∧
      (∀ j < 16, v.getLsbD j =
        (s.block.ts.read s.block.selTile.toNat).getLsbD (16 * s.block.selRow.toNat + j)) ∧
      v.extractLsb' 16 16 = 0 ∧ t.block = s.block ∧ s.SameSurroundings t ∧ t.ports.srcDone = none) ∧
  (∀ s : State, ¬(s.block.state = .done ∧ s.block.selTile < s.block.tilecount) →
    ∃ t, exec .rdrow s = .next t ∧ t.ports.hRdata = some 0 ∧ t.block = s.block ∧ s.SameSurroundings t ∧
      t.ports.srcDone = none)

/-- R128: TILECOUNT reads the register, which is 0 in every state but DONE and at most 130,560 in DONE. -/
def Obligations.TilecountReadsZeroUnlessDone : Prop :=
  ∀ s : State, s.Inv →
    ∃ t v, exec (.rdreg 5) s = .next t ∧ t.ports.hRdata = some v ∧ v.toNat = s.block.tilecount.toNat ∧
      v.toNat ≤ 130560 ∧ (s.block.state ≠ .done → v = 0)

/-- R129: ERRHDRq reads the four header bytes while ECODE is INVALID_FORMAT, and 0 otherwise. -/
def Obligations.ErrhdrReadsHeaderOnlyAfterInvalidFormat : Prop :=
  ∀ (q : Fin 4) (s : State),
    ∃ t v, exec (.rdreg (BitVec.ofNat 5 (12 + q.val))) s = .next t ∧ t.ports.hRdata = some v ∧
      (s.block.ecode = .invalidFormat → ∀ m : Fin 4, v.extractLsb' (8 * m.val) 8 = s.block.hdr[4 * q.val + m.val]) ∧
      (s.block.ecode ≠ .invalidFormat → v = 0)

/-- R130 with the constants of R38: the palette reads the same in every state. -/
def Obligations.PaletteReadsItsConstants : Prop :=
  ∀ s : State, ∃ t0 t1 t2 t3,
    exec (.rdreg 16) s = .next t0 ∧ t0.ports.hRdata = some 0x00000000 ∧
    exec (.rdreg 17) s = .next t1 ∧ t1.ports.hRdata = some 0xFF0000FF ∧
    exec (.rdreg 18) s = .next t2 ∧ t2.ports.hRdata = some 0x00FF00FF ∧
    exec (.rdreg 19) s = .next t3 ∧ t3.ports.hRdata = some 0x0000FFFF

/-! ### Header validator (spec/41_header_validation.md) -/

/-- R140: the three outcomes of HDR_READ when the source answers the read of address 0. While the source
stalls it the block stays and the request is held (R247): that this is a next state is the model's form of a
step that is not enabled (log 6). POS is 0 in P_HDR (R140; `Block.Legal`). -/
def Obligations.HdrReadTakesAFullHeaderOrRaises : Prop :=
  ∀ s : State, s.block.pos = 0 →
    ∃ t, exec .hdrRead s = .next t ∧ s.SameSurroundings t ∧ t.ports.hRdata = none ∧
      (s.source.stall = some .hdr → t.block = s.block ∧ t.ports.srcDone = none ∧
        t.ports.srcPending = some { op := .read, addr := 0 }) ∧
      (s.source.stall ≠ some .hdr →
        t.ports.srcPending = none ∧
        (∃ r, t.ports.srcDone = some ({ op := .read, addr := 0 }, .read r) ∧
          r.Answers s.source (some .hdr) 0) ∧
        (∀ c, s.source.fail.hdr = some c → t.block = s.block.withError .sourceFailure .headerRead 0 c) ∧
        (s.source.fail.hdr = none → 16 ≤ s.source.image.len →
          t.block = { s.block with hdr := s.source.image.bytes16 0, pos := 16, phase := .magic }) ∧
        (s.source.fail.hdr = none → s.source.image.len < 16 →
          t.block = s.block.withError .truncatedInput .headerRead 0 0))

/-- R141: the exact comparison of the four magic bytes, and its two outcomes; no transaction; the counts
are still 0. -/
def Obligations.MagicCheckPassesOnlyTheSignature : Prop :=
  ∀ s : State, ∃ t, exec .magicCheck s = .next t ∧ s.SameSurroundings t ∧ s.NoTraffic t ∧
    (s.block.hdr[0] = 0x4E ∧ s.block.hdr[1] = 0x45 ∧ s.block.hdr[2] = 0x53 ∧ s.block.hdr[3] = 0x1A →
      t.block = { s.block with phase := .counts }) ∧
    (¬(s.block.hdr[0] = 0x4E ∧ s.block.hdr[1] = 0x45 ∧ s.block.hdr[2] = 0x53 ∧ s.block.hdr[3] = 0x1A) →
      t.block = s.block.withError .invalidFormat .none 0 0) ∧
    (s.Inv → s.block.phase = .magic → t.block.pbc = 0 ∧ t.block.gbc = 0)

/-- R142: both counts are latched and nothing else changes; BANKS then reads them. -/
def Obligations.CountLatchLatchesBothCounts : Prop :=
  ∀ s : State, ∃ t, exec .countLatch s = .next t ∧ s.SameSurroundings t ∧ s.NoTraffic t ∧
    t.block = { s.block with pbc := s.block.hdr[4], gbc := s.block.hdr[5], phase := .gfxchk } ∧
    t.block.readReg 6 = some (0#16 ++ s.block.hdr[5] ++ s.block.hdr[4])

/-- R143: a zero graphics-bank count raises, any other goes on; no transaction. -/
def Obligations.GfxCheckRaisesOnlyOnZeroBanks : Prop :=
  ∀ s : State, ∃ t, exec .gfxCheck s = .next t ∧ s.SameSurroundings t ∧ s.NoTraffic t ∧
    (s.block.gbc = 0 → t.block = s.block.withError .unsupportedGraphicsStorage .none 0 0) ∧
    (s.block.gbc ≠ 0 → t.block = { s.block with phase := .seek })

/-! ### Address calculator (spec/42_bank_address.md) -/

/-- R150: the value is exact and is the carry-free bit pattern. -/
def Obligations.GfxBaseIsExactAndCarryFree : Prop :=
  ∀ p : Byte, (gfxBase p).toNat = 16 + p.toNat * 16384 ∧ gfxBase p = 0#1 ++ p ++ 0x0010#14 ∧
    (gfxBase p).toNat ≤ 4177936

/-- R151: the seek is issued for every PBC; a failure raises, else POS moves; never TRUNCATED_INPUT. While the
source stalls it the block stays and the request is held (R247): that this is a next state is the model's form
of a step that is not enabled (log 6). -/
def Obligations.BankSeekMovesToTheRegionOrRaises : Prop :=
  ∀ s : State,
    ∃ t, exec .bankSeek s = .next t ∧ s.SameSurroundings t ∧ t.ports.hRdata = none ∧
      (s.source.stall = some .seek → t.block = s.block ∧ t.ports.srcDone = none ∧
        t.ports.srcPending = some { op := .seek, addr := gfxBase s.block.pbc }) ∧
      (s.source.stall ≠ some .seek →
        t.ports.srcPending = none ∧
        (∃ r, t.ports.srcDone = some ({ op := .seek, addr := gfxBase s.block.pbc }, .seek r) ∧
          r.Answers s.source (some .seek)) ∧
        (∀ c, s.source.fail.seek = some c → t.block = s.block.withError .sourceFailure .seek 0 c) ∧
        (s.source.fail.seek = none →
          t.block = { s.block with pos := gfxBase s.block.pbc, phase := .tread }))

/-! ### Tile fetch (spec/43_tile_fetch.md) -/

/-- R160: the five outcomes of TILE_READ when the source answers the read at POS, over SRC_LEN and FAIL. While
the source stalls it the block stays and the request is held (R247): that this is a next state is the model's
form of a step that is not enabled (log 6). That a read can start past the end only for tile 0 is R160 (a), the
spec's own inference from R63. -/
def Obligations.TileReadHasFiveOutcomes : Prop :=
  ∀ s : State,
    (∃ t, exec .tileRead s = .next t ∧ s.SameSurroundings t ∧ t.ports.hRdata = none ∧
      (s.source.stall = some (.tile s.block.tidx.toNat) → t.block = s.block ∧ t.ports.srcDone = none ∧
        t.ports.srcPending = some { op := .read, addr := s.block.pos }) ∧
      (s.source.stall ≠ some (.tile s.block.tidx.toNat) →
        t.ports.srcPending = none ∧
        (∃ r, t.ports.srcDone = some ({ op := .read, addr := s.block.pos }, .read r) ∧
          r.Answers s.source (some (.tile s.block.tidx.toNat)) s.block.pos) ∧
        (∀ c, s.source.fail.code? (.tile s.block.tidx.toNat) = some c →
          t.block = s.block.withError .sourceFailure .tileRead s.block.tidx c) ∧
        (s.source.fail.code? (.tile s.block.tidx.toNat) = none →
          (s.source.image.len < s.block.pos.toNat →
            t.block = s.block.withError .truncatedInput .tileRead s.block.tidx 0) ∧
          (s.block.pos.toNat + 16 ≤ s.source.image.len →
            t.block =
              { s.block with
                tbuf := s.source.image.bytes16 s.block.pos.toNat
                pos := s.block.pos + 16
                phase := .tdec }) ∧
          (s.source.image.len = s.block.pos.toNat →
            t.block = { s.block with tilecount := s.block.tidx, state := .done, phase := .done }) ∧
          (s.block.pos.toNat < s.source.image.len → s.source.image.len < s.block.pos.toNat + 16 →
            t.block = s.block.withError .truncatedInput .tileRead s.block.tidx 0)))) ∧
    (s.Inv → s.block.phase = .tread → s.source.image.len < s.block.pos.toNat → s.block.tidx = 0)

/-- R164: a run that ends in DONE has `min(512 × GBC, (SRC_LEN − gfx_base) / 16)` tiles, and the division is
exact when it is the smaller. -/
def Obligations.DoneCountIsTheDeclaredOrTheAvailable : Prop :=
  ∀ s t : State, s.Inv → step s = .next t → s.block.state = .busy → t.block.state = .done →
    t.block.tilecount.toNat =
        min (512 * t.block.gbc.toNat) ((s.source.image.len - regionBase t.block.pbc) / 16) ∧
      ((s.source.image.len - regionBase t.block.pbc) / 16 < 512 * t.block.gbc.toNat →
        16 ∣ s.source.image.len - regionBase t.block.pbc)

/-- R41 (g) and R76: the step that sets DONE publishes exactly the unpacked tiles of the source, in order. -/
def Obligations.DonePublishesTheUnpackedSource : Prop :=
  ∀ s t : State, s.Inv → step s = .next t → s.block.state = .busy → t.block.state = .done →
    ∀ k < t.block.tilecount.toNat,
      regionBase t.block.pbc + 16 * k + 16 ≤ s.source.image.len ∧
      t.block.ts.read k = entry (s.source.image.bytes16 (regionBase t.block.pbc + 16 * k))

/-- R162, R37: in DONE no step but an accepted START or reset changes the result; only REJ and TSEL can
change. -/
def Obligations.DoneResultIsImmutable : Prop :=
  ∀ s t : State, step s = .next t → s.block.state = .done → s.block.phase = .done →
    ¬s.StartNext → s.inputs.head? ≠ some .reset →
    t.block = { s.block with rej := t.block.rej, tsel := t.block.tsel }

/-- R163 with R161 and R246: a run from any state that is not BUSY ends, if the source answers, within
`5 + 2 × 512 × GBC` phase steps after START, and shows the end R163 gives. -/
def Obligations.RunEndsAsTheSourceSays : Prop :=
  ∀ (s : State) (v : Word), s.Inv → s.block.state ≠ .busy → s.source.stall = none →
    s.inputs = [.host true 0 v] → v.extractLsb' 0 8 = 0x01#8 →
    ∃ n ≤ 1 + (5 + 2 * 512 * (s.source.image.byte 5).toNat), 1 ≤ n ∧ ∃ t : State,
      Sys2Proof.core.run n s = .next t ∧ t.block.ended ∧ t.source = s.source ∧ t.block.rej = false ∧
        t.block.ShowsEnd s.source s.source.runEnd

/-- R121, last sentence: runs over one source from two states that are not BUSY stay at the same point,
whatever the earlier runs left. That both go on answering while the source stalls (R247) and after the run has
ended (R104), where the spec has no enabled step, is the model's form (logs 6 and 7). -/
def Obligations.RunsDoNotDependOnEarlierRuns : Prop :=
  ∀ (s u : State) (v : Word), s.Inv → u.Inv → s.block.state ≠ .busy → u.block.state ≠ .busy →
    u.source = s.source → s.inputs = [.host true 0 v] → u.inputs = [.host true 0 v] →
    v.extractLsb' 0 8 = 0x01#8 →
    ∀ n : Nat, ∃ t w : State, Sys2Proof.core.run (n + 1) s = .next t ∧ Sys2Proof.core.run (n + 1) u = .next w ∧
      t.block.SamePoint w.block

/-! ### Tile unpacker (spec/44_tile_unpack.md) -/

/-- R181 (and R93): the colour index is `bitA + 2 × bitB`, both at bit position `7 − c`. -/
def Obligations.PixelIsBitAPlusTwiceBitB : Prop :=
  ∀ (b : Bytes16) (i c : Fin 8),
    (pixel b i c).toNat =
      ((b[i.val]).getLsbD (7 - c.val)).toNat + 2 * ((b[i.val + 8]).getLsbD (7 - c.val)).toNat

/-- R182: the row word packs the pixels of its row, is the interleave of the two plane bytes, and the entry
stacks the row words. -/
def Obligations.EntryInterleavesThePlanes : Prop :=
  ∀ (b : Bytes16) (i j : Fin 8),
    (rowword b i).extractLsb' (14 - 2 * j.val) 2 = pixel b i j ∧
    (rowword b i).getLsbD (2 * j.val + 1) = (b[i.val + 8]).getLsbD j.val ∧
    (rowword b i).getLsbD (2 * j.val) = (b[i.val]).getLsbD j.val ∧
    (entry b).extractLsb' (16 * i.val) 16 = rowword b i

/-- R188: the bits of `encode`. That `unpack` and `encode` are inverse to each other is R188's own inference
from R181. -/
def Obligations.UnpackAndEncodeAreInverse : Prop :=
  (∀ (g : Grid) (i c : Fin 8),
    ((encodeTile g)[i.val]).getLsbD (7 - c.val) = (g[i.val][c.val]).getLsbD 0 ∧
    ((encodeTile g)[i.val + 8]).getLsbD (7 - c.val) = (g[i.val][c.val]).getLsbD 1) ∧
  (∀ g : Grid, unpackTile (encodeTile g) = g) ∧ (∀ b : Bytes16, encodeTile (unpackTile b) = b)

/-- R187: `unpack` and its packing `entry` are bijections. -/
def Obligations.UnpackIsABijection : Prop :=
  Function.Bijective unpackTile ∧ Function.Bijective entry

/-- R186: the source's worked vector. The source gives the top row; that the other seven rows are 0 is R186's own
inference from R181. -/
def Obligations.KnownVectorDecodesAsGiven : Prop :=
  unpackTile #v[0xF0, 0, 0, 0, 0, 0, 0, 0, 0xCC, 0, 0, 0, 0, 0, 0, 0] =
    #v[#v[3, 3, 1, 1, 2, 2, 0, 0], Vector.replicate 8 0, Vector.replicate 8 0, Vector.replicate 8 0,
      Vector.replicate 8 0, Vector.replicate 8 0, Vector.replicate 8 0, Vector.replicate 8 0]

/-- R184: TILE_DECODE stores the unpacked TBUF at TIDX, leaves every other entry, and advances the loop;
the run ends in it after the last tile of the last bank. That the entry exists is the invariant
`Block.Legal` (R27). -/
def Obligations.TileDecodeStoresAndAdvances : Prop :=
  ∀ s : State, s.block.tidx.toNat < 130560 → s.block.ts.wf = true →
    ∃ t, exec .tileDecode s = .next t ∧ s.SameSurroundings t ∧ s.NoTraffic t ∧
      t.block.ts.read s.block.tidx.toNat = entry s.block.tbuf ∧
      (∀ k, k ≠ s.block.tidx.toNat → t.block.ts.read k = s.block.ts.read k) ∧
      (s.block.tib ≠ 511 →
        t.block =
          { s.block with
            ts := t.block.ts
            tidx := s.block.tidx + 1
            tib := s.block.tib + 1
            phase := .tread }) ∧
      (s.block.tib = 511 → s.block.bank.toNat + 1 ≠ s.block.gbc.toNat →
        t.block =
          { s.block with
            ts := t.block.ts
            tidx := s.block.tidx + 1
            tib := 0
            bank := s.block.bank + 1
            phase := .tread }) ∧
      (s.block.tib = 511 → s.block.bank.toNat + 1 = s.block.gbc.toNat →
        t.block =
          { s.block with
            ts := t.block.ts
            tidx := s.block.tidx + 1
            tib := 0
            bank := s.block.bank + 1
            tilecount := s.block.tidx + 1
            state := .done
            phase := .done })

/-- R185 with R183: the unpack port answers lane by lane from its input, and touches no register. -/
def Obligations.UnpackPortAnswersLaneByLane : Prop :=
  ∀ (b : BitVec 128) (s : State),
    ∃ t, exec (.unpack b) s = .next t ∧ t.ports.utIn = b ∧
      (∀ i j : Fin 8,
        t.ports.utOut.getLsbD (16 * i.val + 2 * j.val) = b.getLsbD (8 * i.val + j.val) ∧
        t.ports.utOut.getLsbD (16 * i.val + 2 * j.val + 1) = b.getLsbD (8 * (i.val + 8) + j.val)) ∧
      t.block = s.block ∧ t.source = s.source ∧ t.inputs = s.inputs ∧ s.NoTraffic t

/-! ### Source port (spec/20_memory.md) -/

/-- R63: the response of a read, for every access and address: a failure gives its code; else FCODE 0, PAST
exactly beyond the extent, COUNT the bytes deliverable and DATA those bytes. -/
def Obligations.ReadResponseIsTheSources : Prop :=
  ∀ (s : State) (acc : Option Access) (a : SrcAddr), s.source.stalls acc = false →
    ∃ t r, s.srcRead16 acc a = (t, some r) ∧ t.block = s.block ∧
      (∀ c, s.source.failCode acc = some c → r.fail = true ∧ r.fcode = c) ∧
      (s.source.failCode acc = none →
        r.fail = false ∧ r.fcode = 0 ∧ (r.past = true ↔ s.source.image.len < a.toNat) ∧
        r.count.toNat = min 16 (s.source.image.len - a.toNat) ∧
        ∀ m : Fin 16, m.val < r.count.toNat → r.data[m.val] = s.source.image.byte (a.toNat + m.val))

/-- SRC_READ: the read that the current phase presents is that phase's step, which completes with its answer
(R236, R63). That a read no phase presents is answered as R63 says, with no effect on the block (R72), while no
run has the source, and stops while the port is in use (R67, R241, R243), is the model's choice (log 9). -/
def Obligations.SrcReadShowsItsTransaction : Prop :=
  ∀ (a : SrcAddr) (s : State),
    (s.block.accessOf { op := .read, addr := a } = none → s.block.state ≠ .busy → s.ports.srcPending = none →
      ∃ t r, exec (.srcRead a) s = .next t ∧ t.block = s.block ∧ s.SameSurroundings t ∧
        t.ports.hRdata = none ∧ t.ports.srcPending = none ∧
        t.ports.srcDone = some ({ op := .read, addr := a }, .read r) ∧ r.Answers s.source none a) ∧
    (∀ acc, s.block.accessOf { op := .read, addr := a } = some acc →
      (s.block.phase = .hdr ∧ acc = .hdr ∧ a = s.block.pos ∧ exec (.srcRead a) s = exec .hdrRead s) ∨
        (s.block.phase = .tread ∧ acc = .tile s.block.tidx.toNat ∧ a = s.block.pos ∧
          exec (.srcRead a) s = exec .tileRead s)) ∧
    (∀ acc, s.block.accessOf { op := .read, addr := a } = some acc → s.source.stalls (some acc) = false →
      ∃ t r, exec (.srcRead a) s = .next t ∧ s.SameSurroundings t ∧ t.ports.hRdata = none ∧
        t.ports.srcPending = none ∧ t.ports.srcDone = some ({ op := .read, addr := a }, .read r) ∧
        r.Answers s.source (some acc) a) ∧
    (s.block.accessOf { op := .read, addr := a } = none →
      s.block.state = .busy ∨ s.ports.srcPending ≠ none → exec (.srcRead a) s = .fault .sourceInUse)

/-- SRC_SEEK: the seek that P_SEEK presents is BANK_SEEK, which completes with its answer (R236, R65). That a
seek no phase presents is answered as R65 says, with no end condition however far the target lies and with no
effect on the block, while no run has the source, and stops while the port is in use (R67, R241, R243), is the
model's choice (log 9). -/
def Obligations.SrcSeekShowsItsTransaction : Prop :=
  ∀ (a : SrcAddr) (s : State),
    (s.block.accessOf { op := .seek, addr := a } = none → s.block.state ≠ .busy → s.ports.srcPending = none →
      ∃ t r, exec (.srcSeek a) s = .next t ∧ t.block = s.block ∧ s.SameSurroundings t ∧
        t.ports.hRdata = none ∧ t.ports.srcPending = none ∧ t.freeNext = s.freeNext ∧
        t.ports.srcDone = some ({ op := .seek, addr := a }, .seek r) ∧ r.Answers s.source none) ∧
    (∀ acc, s.block.accessOf { op := .seek, addr := a } = some acc →
      s.block.phase = .seek ∧ acc = .seek ∧ a = gfxBase s.block.pbc ∧
        exec (.srcSeek a) s = exec .bankSeek s) ∧
    (∀ acc, s.block.accessOf { op := .seek, addr := a } = some acc → s.source.stalls (some acc) = false →
      ∃ t r, exec (.srcSeek a) s = .next t ∧ s.SameSurroundings t ∧ t.ports.hRdata = none ∧
        t.ports.srcPending = none ∧ t.freeNext = s.freeNext ∧
        t.ports.srcDone = some ({ op := .seek, addr := a }, .seek r) ∧ r.Answers s.source (some acc)) ∧
    (s.block.accessOf { op := .seek, addr := a } = none →
      s.block.state = .busy ∨ s.ports.srcPending ≠ none → exec (.srcSeek a) s = .fault .sourceInUse)

/-- R247: while the source stalls the access of the current phase, the sequencer's step never completes:
however long it is tried, the block stays as it is and the request is held. That it stays by steps is the
model's form of a step that is not enabled (log 6). -/
def Obligations.StalledSourceHoldsThePhaseForever : Prop :=
  ∀ (s : State) (acc : Access) (q : SrcRequest), s.inputs = [] → s.block.request? = some (acc, q) →
    s.source.stall = some acc →
    ∀ n : Nat, ∃ t : State, Sys2Proof.core.run (n + 1) s = .next t ∧ t.block = s.block ∧ t.source = s.source ∧
      t.ports.srcPending = some q ∧ t.ports.srcDone = none

/-- R67, R71, R152: every transaction of a run, whoever asks for it, is aligned and is the one its phase
presents; a read is of the header or inside the declared graphics banks, never of a program bank; the seek is
never backward. -/
def Obligations.TransactionsKeepTheDiscipline : Prop :=
  ∀ (s t : State) (q : SrcRequest) (r : SrcAnswer), s.Inv → s.block.state = .busy → step s = .next t →
    t.ports.srcDone = some (q, r) →
    s.SequencerNext ∧ (∃ acc, s.block.request? = some (acc, q)) ∧ q.addr.toNat % 16 = 0 ∧
    (q.op = .read →
      (s.block.phase = .hdr ∧ q.addr = 0) ∨
      (s.block.phase = .tread ∧
        q.addr.toNat = regionBase s.block.pbc + 16 * s.block.tidx.toNat ∧
        q.addr.toNat + 16 ≤ regionBase s.block.pbc + 8192 * s.block.gbc.toNat)) ∧
    (q.op = .seek →
      s.block.phase = .seek ∧ q.addr.toNat = regionBase s.block.pbc ∧ s.block.pos.toNat ≤ q.addr.toNat)

/-! ### Errors (spec/60_exceptions.md) -/

/-- R210 and R200: an error is entered only by the listed steps, with the listed record, and everything
else keeps its value. -/
def Obligations.ErrorEntryRecordsTheFailingStep : Prop :=
  ∀ s t : State, step s = .next t → s.block.state = .busy → t.block.state = .error →
    ∃ k p tile code, t.block = s.block.withError k p tile code ∧
      ((s.block.phase = .hdr ∧ k = .truncatedInput ∧ p = .headerRead ∧ tile = 0 ∧ code = 0) ∨
        (s.block.phase = .hdr ∧ k = .sourceFailure ∧ p = .headerRead ∧ tile = 0 ∧
          s.source.fail.hdr = some code) ∨
        (s.block.phase = .magic ∧ k = .invalidFormat ∧ p = .none ∧ tile = 0 ∧ code = 0) ∨
        (s.block.phase = .gfxchk ∧ k = .unsupportedGraphicsStorage ∧ p = .none ∧ tile = 0 ∧ code = 0) ∨
        (s.block.phase = .seek ∧ k = .sourceFailure ∧ p = .seek ∧ tile = 0 ∧
          s.source.fail.seek = some code) ∨
        (s.block.phase = .tread ∧ k = .truncatedInput ∧ p = .tileRead ∧ tile = s.block.tidx ∧ code = 0) ∨
        (s.block.phase = .tread ∧ k = .sourceFailure ∧ p = .tileRead ∧ tile = s.block.tidx ∧
          s.source.fail.code? (.tile s.block.tidx.toNat) = some code))

/-- R211: in ERROR TILECOUNT reads 0 and every read of TROW answers 0, whatever TSEL selects. -/
def Obligations.ErrorShowsNoTile : Prop :=
  ∀ (s : State) (sel : BitVec 20), s.Inv → s.block.state = .error →
    ({ s.block with tsel := sel } : Block).readReg 5 = some 0 ∧
      ({ s.block with tsel := sel } : Block).readReg 8 = some 0

/-- R212: in ERROR a step keeps the whole record (only REJ and TSEL can change), or is the START that clears
it and begins a fresh run, or is reset. -/
def Obligations.ErrorIsLeftOnlyByStartOrReset : Prop :=
  ∀ s t : State, step s = .next t → s.block.state = .error → s.block.phase = .error →
    t.block = { s.block with rej := t.block.rej, tsel := t.block.tsel } ∨
      (s.StartNext ∧ t.block.state = .busy ∧ t.block.phase = .hdr ∧ t.block.pos = 0 ∧ t.block.ecode = .none ∧
        t.block.ephase = .none ∧ t.block.etile = 0 ∧ t.block.esrc = 0) ∨
      (s.inputs.head? = some .reset ∧ t.block.state = .idle ∧ t.block.phase = .idle ∧ t.block.ecode = .none)

/-! ### Control and whole-machine rules -/

/-- R104: a phase step takes an edge of the table, or waits with the block unchanged. That waiting is a step is
the model's form (logs 6 and 7). -/
def Obligations.PhaseStepsFollowTheTable : Prop :=
  ∀ s t : State, s.SequencerNext → step s = .next t →
    (s.block.phase, t.block.phase) ∈ phaseEdges ∨ t.block = s.block

/-- R75, R243: a host access during a run changes no register of the run, nor the source, nor a request in
progress. -/
def Obligations.HostAccessLeavesTheRunUndisturbed : Prop :=
  ∀ (s t : State) (we : Bool) (idx : BitVec 5) (v : Word), s.inputs.head? = some (.host we idx v) →
    s.block.state = .busy → step s = .next t →
    t.block = { s.block with rej := t.block.rej, tsel := t.block.tsel } ∧ t.source = s.source ∧
      t.ports.srcPending = s.ports.srcPending

/-- R63, R23, R36: no phase step's effect on the block depends on REJ, on TSEL, on what the ports show, on
what comes in next or on the free values of a response. -/
def Obligations.PhaseStepsIgnoreHostRegistersAndFreeValues : Prop :=
  ∀ (i : Instr) (s u t : State),
    i ∈ [Instr.hdrRead, .magicCheck, .countLatch, .gfxCheck, .bankSeek, .tileRead, .tileDecode] →
    u.source = s.source → u.block = { s.block with rej := u.block.rej, tsel := u.block.tsel } →
    exec i s = .next t →
    ∃ w, exec i u = .next w ∧ w.block = { t.block with rej := u.block.rej, tsel := u.block.tsel }

/-- R231, R220: with nothing coming in, an idle, done or failed block stays as it is and issues nothing. That it
waits by steps is the model's form (log 7). -/
def Obligations.IdleBlockWaits : Prop :=
  ∀ s : State, s.inputs = [] → s.block.phase.runState ≠ .busy →
    ∀ n : Nat, ∃ t : State, Sys2Proof.core.run (n + 1) s = .next t ∧ t.block = s.block ∧
      t.source = s.source ∧ t.ports.srcDone = none ∧ t.ports.srcPending = s.ports.srcPending

/-- R230, R232 with R45: reset gives every register the value of R45 from any state, and the request in
progress falls. HDR, TBUF and TS are unspecified there and not stated. -/
def Obligations.ResetGivesEveryRegisterItsValue : Prop :=
  ∀ (s : State) (rest : List Input), s.inputs = .reset :: rest →
    ∃ t, step s = .next t ∧ t.block.state = .idle ∧ t.block.phase = .idle ∧ t.block.rej = false ∧
      t.block.pos = 0 ∧ t.block.bank = 0 ∧ t.block.tib = 0 ∧ t.block.tidx = 0 ∧ t.block.pbc = 0 ∧
      t.block.gbc = 0 ∧ t.block.tilecount = 0 ∧ t.block.ecode = .none ∧ t.block.ephase = .none ∧
      t.block.etile = 0 ∧ t.block.esrc = 0 ∧ t.block.tsel = 0 ∧ t.ports.srcPending = none ∧
      t.ports.srcDone = none ∧
      (∀ n : BitVec 5, n.toNat < 16 ∨ 20 ≤ n.toNat → t.block.readReg n = some 0) ∧
      t.block.readReg 16 = some 0x00000000 ∧ t.block.readReg 17 = some 0xFF0000FF ∧
      t.block.readReg 18 = some 0x00FF00FF ∧ t.block.readReg 19 = some 0x0000FFFF

/-- The invariant (R41 and the ranges of R22 to R37) holds right after reset. -/
def Obligations.ResetMeetsTheInvariant : Prop :=
  State.reset.Inv

/-- R41: every step keeps the invariant. -/
def Obligations.EveryStepKeepsTheInvariant : Prop :=
  ∀ s t : State, s.Inv → step s = .next t → t.Inv

/-- R120, R245: in a state of the invariant every step answers a next state, unless during a run the source is
replaced or a transaction is asked for that the phase does not present, which R241 and R243 forbid (the model
stops there: logs 9 and 12). That the step of a stalled access (R247) and the turn in an idle phase (R104), which
the spec has as not enabled, answer with the block unchanged is the model's form (logs 6 and 7). -/
def Obligations.EveryStepAnswers : Prop :=
  ∀ s : State, s.Inv →
    (∃ t, step s = .next t) ∨
      (s.block.state = .busy ∧ ∃ src, s.inputs.head? = some (.attach src) ∧
        step s = .fault .sourceChangedDuringRun) ∨
      (s.block.state = .busy ∧ (∃ op a, s.inputs.head? = some (.sourcePort op a)) ∧ ¬s.SequencerNext ∧
        step s = .fault .sourceInUse)

/-- A source is attached whenever no run is in progress, and nothing else changes (R233; log 12): not the block,
the inputs still to come, the unpack port, a held request or the free-value counter. -/
def Obligations.AttachReplacesOnlyTheSource : Prop :=
  ∀ (s : State) (src : Source) (rest : List Input), s.inputs = .attach src :: rest →
    s.block.state ≠ .busy →
    ∃ t, step s = .next t ∧ t.block = s.block ∧ t.source = src ∧ t.inputs = rest ∧
      t.ports.utIn = s.ports.utIn ∧ t.ports.utOut = s.ports.utOut ∧ s.NoTraffic t

/-! ### Encodings (spec/30_encoding.md, spec/opcode_table.json) -/

/-- Decoding the word of a well-formed operation gives the operation back, for all fourteen (R103). -/
def Obligations.DecodeOfEncodeIsTheOperation : Prop :=
  ∀ i : Instr, i.wellFormed = true → decode (encode i) = .ok i

/-- A word that decodes has one meaning and one encoding, and its operation is well formed (R103, R105). -/
def Obligations.EncodeOfDecodeIsTheWord : Prop :=
  ∀ (w : PortWord) (i : Instr), decode w = .ok i → i.wellFormed = true ∧ encode i = w

/-- A step runs the operation its word decodes to: the phase step of PHASE when nothing comes in first,
else the word that the oldest input presents, with that input consumed (log 5). -/
def Obligations.StepRunsTheDecodedOperation : Prop :=
  (∀ (s : State) (i : Instr), s.inputs = [] → decode (.phase s.block.phase.code) = .ok i →
    step s = exec i s) ∧
  (∀ (s : State) (x : Input) (rest : List Input) (w : PortWord) (i : Instr), s.inputs = x :: rest →
    x.present s.block.phase = .word w → decode w = .ok i → step s = exec i { s with inputs := rest })

/-- Words written out from spec/opcode_table.json decode to their rows. That a word of 40 or 8 bits is one of the
table's 38 or of its 6 or 4, rounded up to bytes, and which of the two an eight-bit word is, is the model's
choice (log 8). -/
def Obligations.TableWordsDecodeToTheirRows : Prop :=
  decodeTableWord 40 0x2000000001 = some (.start 0) ∧
  decodeTableWord 40 0x20FFFFFF01 = some (.start 0xFFFFFF) ∧
  decodeTableWord 40 0x2000000002 = none ∧
  decodeTableWord 40 0x2700060005 = some (.wrtsel 0 3 5) ∧
  decodeTableWord 8 0x08 = some .rdrow ∧
  decodeTableWord 6 0x11 = some (.rdreg 17) ∧
  decodeTableWord 4 0x6 = some .tileRead ∧
  decodeTableWord 4 0xA = none ∧
  decodeTableWord 24 0x008010 = some (.srcRead 0x8010) ∧
  decodeTableWord 24 0x808010 = some (.srcSeek 0x8010) ∧
  decodeTableWord 128 0xCC00000000000000F0 = some (.unpack 0xCC00000000000000F0)

/-! ### A held request (spec/70_reset_and_hazards.md) -/

/-- R247, R236, R232: a request the source has not answered is held, with no other transaction and no step of
the run, whatever comes in, until reset; the host can only write TSEL and have a command rejected meanwhile.
That a stalled step is a next state is the model's form (log 6). -/
def Obligations.HeldRequestFallsOnlyAtReset : Prop :=
  ∀ (s t : State) (q : SrcRequest), s.Inv → s.ports.srcPending = some q → step s = .next t →
    s.inputs.head? ≠ some .reset →
    t.ports.srcPending = some q ∧ t.ports.srcDone = none ∧ t.source = s.source ∧
      t.block = { s.block with rej := t.block.rej, tsel := t.block.tsel }
end

