-- ==== Sys2Proof/Laws/Bits.lean ====
section
/-!
SUPPORT. Fields of concatenations: the operands of a word are its parts, and a word is the concatenation
of its fields.
-/

namespace Sys2Proof

variable {a b : Nat}

/-- A field that lies in the lower part. -/
theorem extract_low (x : BitVec a) (y : BitVec b) (s n : Nat) (h : s + n ≤ b) :
    (x ++ y).extractLsb' s n = y.extractLsb' s n := by
  apply BitVec.eq_of_getLsbD_eq
  intro i hi
  rw [BitVec.getLsbD_extractLsb', BitVec.getLsbD_append, BitVec.getLsbD_extractLsb']
  simp [show s + i < b by omega]

/-- A field that lies in the upper part. -/
theorem extract_high (x : BitVec a) (y : BitVec b) (s n : Nat) (h : b ≤ s) :
    (x ++ y).extractLsb' s n = x.extractLsb' (s - b) n := by
  apply BitVec.eq_of_getLsbD_eq
  intro i hi
  rw [BitVec.getLsbD_extractLsb', BitVec.getLsbD_append, BitVec.getLsbD_extractLsb']
  simp [show ¬ s + i < b by omega, show s + i - b = s - b + i by omega]

/-- The whole of a word as a field. -/
theorem extract_all (x : BitVec a) : x.extractLsb' 0 a = x := by
  apply BitVec.eq_of_getLsbD_eq
  intro i hi
  simp [hi]

/-- Two neighbouring fields make one. -/
theorem extract_append (x : BitVec a) (s m n : Nat) :
    (x.extractLsb' (s + m) n ++ x.extractLsb' s m : BitVec (n + m)) = x.extractLsb' s (n + m) := by
  apply BitVec.eq_of_getLsbD_eq
  intro i hi
  rw [BitVec.getLsbD_append, BitVec.getLsbD_extractLsb', BitVec.getLsbD_extractLsb',
    BitVec.getLsbD_extractLsb']
  by_cases h : i < m
  · simp [h, hi]
  · simp [h, hi, show i - m < n by omega, show s + m + (i - m) = s + i by omega]

/-- One bit of a word as a field. -/
theorem extract_one (x : BitVec a) (s : Nat) : x.extractLsb' s 1 = BitVec.ofBool (x.getLsbD s) := by
  apply BitVec.eq_of_getLsbD_eq
  intro i hi
  simp [show i = 0 by omega]

/-- A field of a zero-extended word below its width. -/
theorem extract_setWidth_low (x : BitVec a) (w s n : Nat) (h : s + n ≤ w) :
    (x.setWidth w).extractLsb' s n = x.extractLsb' s n := by
  apply BitVec.eq_of_getLsbD_eq
  intro i hi
  simp [hi, show s + i < w by omega]

/-- A field at and above a word's width reads zero. -/
theorem extract_beyond (x : BitVec a) (s n : Nat) (h : a ≤ s) : x.extractLsb' s n = 0#n := by
  apply BitVec.eq_of_getLsbD_eq
  intro i hi
  simp [BitVec.getLsbD_extractLsb', BitVec.getLsbD_of_ge x (s + i) (by omega)]

end Sys2Proof
end

