-- ==== Sys2Proof/Laws/Decode.lean ====
section
/-!
SUPPORT. What the decoder reads from the words that the pins and PHASE form, and what a step does with
each input (Machine/Fetch.lean, Machine/Step.lean).
-/

namespace Sys2Proof

/-- A host write of CMD: the code is the low byte (R97). -/
theorem decode_write_cmd (v : Word) :
    decode (Machine.hostWord true 0 v) =
      if v.extractLsb' 0 8 = 0x01#8 then .ok (.start (v.extractLsb' 8 24))
      else .error (.reservedCommand (v.extractLsb' 0 8)) := by
  have h1 : (1#1 ++ 0#5 ++ v : BitVec 38).extractLsb' 37 1 = 1#1 := by
    rw [extract_high _ _ _ _ (by omega), extract_high _ _ _ _ (by omega)]; rfl
  have h2 : (1#1 ++ 0#5 ++ v : BitVec 38).extractLsb' 32 5 = 0#5 := by
    rw [extract_high _ _ _ _ (by omega), extract_low _ _ _ _ (by omega)]; rfl
  have h3 : ∀ s n, s + n ≤ 32 → (1#1 ++ 0#5 ++ v : BitVec 38).extractLsb' s n = v.extractLsb' s n :=
    fun s n h => extract_low _ _ _ _ h
  have h : decode (Machine.hostWord true 0 v) = decodeHostWrite (1#1 ++ 0#5 ++ v) := rfl
  rw [h]
  simp only [decodeHostWrite, h1, h2, h3 0 8 (by omega), h3 8 24 (by omega), if_true]

/-- A host write of TSEL (R126). -/
theorem decode_write_tsel (v : Word) :
    decode (Machine.hostWord true 7 v) =
      .ok (.wrtsel (v.extractLsb' 20 12) (v.extractLsb' 17 3) (v.extractLsb' 0 17)) := by
  have h1 : (1#1 ++ 7#5 ++ v : BitVec 38).extractLsb' 37 1 = 1#1 := by
    rw [extract_high _ _ _ _ (by omega), extract_high _ _ _ _ (by omega)]; rfl
  have h2 : (1#1 ++ 7#5 ++ v : BitVec 38).extractLsb' 32 5 = 7#5 := by
    rw [extract_high _ _ _ _ (by omega), extract_low _ _ _ _ (by omega)]; rfl
  have h3 : ∀ s n, s + n ≤ 32 → (1#1 ++ 7#5 ++ v : BitVec 38).extractLsb' s n = v.extractLsb' s n :=
    fun s n h => extract_low _ _ _ _ h
  have h : decode (Machine.hostWord true 7 v) = decodeHostWrite (1#1 ++ 7#5 ++ v) := rfl
  rw [h]
  simp only [decodeHostWrite, h1, h2, h3 20 12 (by omega), h3 17 3 (by omega), h3 0 17 (by omega), if_true,
    show ¬ (7#5 = 0#5) by decide, if_false]

/-- A host write of any other index selects no operation (R125). -/
theorem decode_write_other (idx : BitVec 5) (v : Word) (h0 : idx ≠ 0) (h7 : idx ≠ 7) :
    decode (Machine.hostWord true idx v) = .error (.ignoredWrite idx) := by
  have h1 : (1#1 ++ idx ++ v : BitVec 38).extractLsb' 37 1 = 1#1 := by
    rw [extract_high _ _ _ _ (by omega), extract_high _ _ _ _ (by omega)]; rfl
  have h2 : (1#1 ++ idx ++ v : BitVec 38).extractLsb' 32 5 = idx := by
    rw [extract_high _ _ _ _ (by omega), extract_low _ _ _ _ (by omega)]; exact extract_all idx
  have h : decode (Machine.hostWord true idx v) = decodeHostWrite (1#1 ++ idx ++ v) := rfl
  rw [h]
  have h0' : ¬ idx = 0#5 := h0
  have h7' : ¬ idx = 7#5 := h7
  simp only [decodeHostWrite, h1, h2, h0', h7', if_true, if_false]

/-- A host read: RDROW for index 8, else RDREG (R103). -/
theorem decode_read (idx : BitVec 5) (v : Word) :
    decode (Machine.hostWord false idx v) = if idx = 8#5 then .ok .rdrow else .ok (.rdreg idx) := by
  have h1 : (0#1 ++ idx : BitVec 6).extractLsb' 5 1 = 0#1 := by
    rw [extract_high _ _ _ _ (by omega)]; rfl
  have h2 : (0#1 ++ idx : BitVec 6).extractLsb' 0 5 = idx := by
    rw [extract_low _ _ _ _ (by omega)]; exact extract_all idx
  have h : decode (Machine.hostWord false idx v) = decodeHostRead (0#1 ++ idx) := rfl
  rw [h]
  simp only [decodeHostRead, h1, h2, if_true]

/-- A source-port word (R101). -/
theorem decode_source (op : Bool) (a : SrcAddr) :
    decode (Machine.sourceWord op a) = .ok (if op then .srcSeek a else .srcRead a) := by
  have h1 : (BitVec.ofBool op ++ a : BitVec 24).extractLsb' 23 1 = BitVec.ofBool op := by
    rw [extract_high _ _ _ _ (by omega)]; exact extract_all _
  have h2 : (BitVec.ofBool op ++ a : BitVec 24).extractLsb' 0 23 = a := by
    rw [extract_low _ _ _ _ (by omega)]; exact extract_all a
  have h : decode (Machine.sourceWord op a) = decodeSrcReq (BitVec.ofBool op ++ a) := rfl
  rw [h]
  cases op <;> simp only [decodeSrcReq, h1, h2] <;> rfl

namespace Machine

variable (s : State) (rest : List Input)

/-- A step with nothing coming in is the phase step. -/
theorem step_nil (h : s.inputs = []) : step s = runFetched (.word (.phase s.block.phase.code)) s := by
  simp [step, State.fetch, h]

/-- A step with an input takes it up and consumes it. -/
theorem step_cons (x : Input) (h : s.inputs = x :: rest) :
    step s = runFetched (x.present s.block.phase) { s with inputs := rest } := by
  simp [step, State.fetch, h]

/-- The phase step of each phase (R104). -/
theorem runFetched_phase (p : Phase) :
    runFetched (.word (.phase p.code)) s =
      match p with
      | .idle => execIdle s
      | .hdr => execHdrRead s
      | .magic => execMagicCheck s
      | .counts => execCountLatch s
      | .gfxchk => execGfxCheck s
      | .seek => execBankSeek s
      | .tread => execTileRead s
      | .tdec => execTileDecode s
      | .done => execIdle s
      | .error => execIdle s := by
  cases p <;> rfl

/-- A write of CMD is START, accepted or rejected, or a rejected code (R121 to R123). -/
theorem runFetched_write_cmd (v : Word) :
    runFetched (.word (hostWord true 0 v)) s =
      if v.extractLsb' 0 8 = 0x01#8 then execStart (v.extractLsb' 8 24) s else execReservedCommand s := by
  simp only [runFetched, decode_write_cmd]
  by_cases h : v.extractLsb' 0 8 = 0x01#8 <;> simp [h, exec, execUnselected]

/-- A write of TSEL (R126). -/
theorem runFetched_write_tsel (v : Word) :
    runFetched (.word (hostWord true 7 v)) s =
      execWrtsel (v.extractLsb' 20 12) (v.extractLsb' 17 3) (v.extractLsb' 0 17) s := by
  simp only [runFetched, decode_write_tsel, exec]

/-- A write of any other index (R125). -/
theorem runFetched_write_other (idx : BitVec 5) (v : Word) (h0 : idx ≠ 0) (h7 : idx ≠ 7) :
    runFetched (.word (hostWord true idx v)) s = execIgnoredWrite s := by
  simp only [runFetched, decode_write_other idx v h0 h7, execUnselected]

/-- A read of any index (R124, R127). -/
theorem runFetched_read (idx : BitVec 5) (v : Word) :
    runFetched (.word (hostWord false idx v)) s = if idx = 8#5 then execRdrow s else execRdreg idx s := by
  simp only [runFetched, decode_read]
  by_cases h : idx = 8#5 <;> simp [h, exec]

/-- A source-port transaction. -/
theorem runFetched_source (op : Bool) (a : SrcAddr) :
    runFetched (.word (sourceWord op a)) s = if op then execSrcSeek a s else execSrcRead a s := by
  simp only [runFetched, decode_source]
  cases op <;> simp [exec]

/-- The unpack port. -/
theorem runFetched_unpack (b : BitVec 128) : runFetched (.word (.comb b)) s = execUnpack b s := rfl

end Machine

end Sys2Proof
end

