-- ==== Sys2Proof/Laws/Memory.lean ====
section
/-!
SUPPORT. The laws of the memory: a read after a write to the same cell gives the value written, every
other cell is left alone, and every write keeps the one canonical form.
-/

namespace Sys2Proof.Machine

variable {w : Nat}

theorem Memory.read_below (m : Memory w) (lo a : Nat) (h : Memory.wfFrom lo m = true) (ha : a < lo) :
    Memory.read m a = Memory.absent w := by
  induction m generalizing lo with
  | nil => rfl
  | cons c rest ih =>
    obtain ⟨k, v⟩ := c
    simp only [Memory.wfFrom, Bool.and_eq_true, decide_eq_true_eq] at h
    have hk : k ≠ a := by omega
    simp only [Memory.read, hk, if_false]
    exact ih (k + 1) h.2 (by omega)

theorem Memory.wfFrom_mono (m : Memory w) (lo hi : Nat) (h : Memory.wfFrom hi m = true) (hl : lo ≤ hi) :
    Memory.wfFrom lo m = true := by
  cases m with
  | nil => rfl
  | cons c rest =>
    obtain ⟨k, v⟩ := c
    simp only [Memory.wfFrom, Bool.and_eq_true, decide_eq_true_eq] at h ⊢
    exact ⟨⟨by omega, h.1.2⟩, h.2⟩

theorem Memory.write_wfFrom (m : Memory w) (lo a : Nat) (v : BitVec w) (h : Memory.wfFrom lo m = true)
    (ha : lo ≤ a) : Memory.wfFrom lo (Memory.write m a v) = true := by
  induction m generalizing lo with
  | nil =>
    simp only [Memory.write]
    split <;> simp_all [Memory.wfFrom]
  | cons c rest ih =>
    obtain ⟨k, x⟩ := c
    simp only [Memory.wfFrom, Bool.and_eq_true, decide_eq_true_eq] at h
    simp only [Memory.write]
    split
    · split <;> simp_all [Memory.wfFrom]
    · split
      · subst a
        split
        · exact Memory.wfFrom_mono rest lo (k + 1) h.2 (by omega)
        · simp_all [Memory.wfFrom]
      · simp only [Memory.wfFrom, Bool.and_eq_true, decide_eq_true_eq]
        exact ⟨h.1, ih (k + 1) h.2 (by omega)⟩

/-- A write keeps the canonical form. -/
theorem Memory.write_wf (m : Memory w) (a : Nat) (v : BitVec w) (h : m.wf = true) :
    Memory.wf (Memory.write m a v) = true :=
  Memory.write_wfFrom m 0 a v h (Nat.zero_le a)

theorem Memory.read_write_from (m : Memory w) (lo a b : Nat) (v : BitVec w)
    (h : Memory.wfFrom lo m = true) :
    Memory.read (Memory.write m a v) b = if a = b then v else Memory.read m b := by
  induction m generalizing lo with
  | nil =>
    simp only [Memory.write]
    split <;> split <;> simp_all [Memory.read]
  | cons c rest ih =>
    obtain ⟨k, x⟩ := c
    simp only [Memory.wfFrom, Bool.and_eq_true, decide_eq_true_eq] at h
    have hr : ∀ y, y < k + 1 → Memory.read rest y = Memory.absent w :=
      fun y hy => Memory.read_below rest (k + 1) y h.2 hy
    simp only [Memory.write]
    split
    · rename_i hak
      split
      · rename_i hv
        by_cases hab : a = b
        · subst hab
          have hka : k ≠ a := by omega
          simp [Memory.read, hka, hr a (by omega), hv]
        · simp [hab]
      · simp [Memory.read]
    · split
      · rename_i hak
        subst hak
        split
        · rename_i hv
          by_cases hab : a = b
          · subst hab
            simp [hr a (by omega), hv]
          · simp [Memory.read, hab]
        · by_cases hab : a = b <;> simp [Memory.read, hab]
      · rename_i h1 h2
        by_cases hkb : k = b
        · subst hkb
          have hak : ¬ a = k := h2
          simp [Memory.read, hak]
        · simp only [Memory.read, hkb, if_false]
          exact ih (k + 1) h.2

/-- A read after a write gives the value written at the same cell and what was there at any other. -/
theorem Memory.read_write (m : Memory w) (a b : Nat) (v : BitVec w) (h : m.wf = true) :
    Memory.read (Memory.write m a v) b = if a = b then v else Memory.read m b :=
  Memory.read_write_from m 0 a b v h

/-- A write lists no address but its own that was not listed. -/
theorem Memory.write_below (m : Memory w) (a n : Nat) (v : BitVec w) (h : m.below n = true) (ha : a < n) :
    Memory.below (Memory.write m a v) n = true := by
  induction m with
  | nil =>
    simp only [Memory.write]
    split <;> simp [Memory.below, ha]
  | cons c rest ih =>
    obtain ⟨k, x⟩ := c
    simp only [Memory.below, List.all_cons, Bool.and_eq_true, decide_eq_true_eq] at h
    have hi := ih h.2
    simp only [Memory.below] at hi ⊢
    simp only [Memory.write]
    split
    · split <;> simp [h.1, h.2, ha]
    · split
      · split <;> simp [h.2, ha]
      · simp only [List.all_cons, Bool.and_eq_true, decide_eq_true_eq]
        exact ⟨h.1, hi⟩

/-- Memory right after reset is in its canonical form. -/
theorem State.reset_ts_wf : State.reset.block.ts.wf = true := rfl

end Sys2Proof.Machine
end

