-- ==== Sys2Proof/Laws/State.lean ====
section
/-!
SUPPORT. One lemma per field per update, each true by rfl, so that no proof unfolds a record update.
-/

namespace Sys2Proof.Machine

variable (s : State) (b c : Block) (v : Word) (q : SrcRequest) (r : SrcAnswer)
variable (k : ErrorKind) (p : ErrorPhase) (n : TileIdx) (x : Byte)

@[simp] theorem Block.reject_state : (b.reject).state = b.state := rfl
@[simp] theorem Block.reject_phase : (b.reject).phase = b.phase := rfl
@[simp] theorem Block.reject_rej : (b.reject).rej = true := rfl
@[simp] theorem Block.reject_pos : (b.reject).pos = b.pos := rfl
@[simp] theorem Block.reject_bank : (b.reject).bank = b.bank := rfl
@[simp] theorem Block.reject_tib : (b.reject).tib = b.tib := rfl
@[simp] theorem Block.reject_tidx : (b.reject).tidx = b.tidx := rfl
@[simp] theorem Block.reject_hdr : (b.reject).hdr = b.hdr := rfl
@[simp] theorem Block.reject_pbc : (b.reject).pbc = b.pbc := rfl
@[simp] theorem Block.reject_gbc : (b.reject).gbc = b.gbc := rfl
@[simp] theorem Block.reject_tbuf : (b.reject).tbuf = b.tbuf := rfl
@[simp] theorem Block.reject_tilecount : (b.reject).tilecount = b.tilecount := rfl
@[simp] theorem Block.reject_ecode : (b.reject).ecode = b.ecode := rfl
@[simp] theorem Block.reject_ephase : (b.reject).ephase = b.ephase := rfl
@[simp] theorem Block.reject_etile : (b.reject).etile = b.etile := rfl
@[simp] theorem Block.reject_esrc : (b.reject).esrc = b.esrc := rfl
@[simp] theorem Block.reject_tsel : (b.reject).tsel = b.tsel := rfl
@[simp] theorem Block.reject_ts : (b.reject).ts = b.ts := rfl

@[simp] theorem Block.raise_state : (b.raise k p n x).state = .error := rfl
@[simp] theorem Block.raise_phase : (b.raise k p n x).phase = .error := rfl
@[simp] theorem Block.raise_rej : (b.raise k p n x).rej = b.rej := rfl
@[simp] theorem Block.raise_pos : (b.raise k p n x).pos = b.pos := rfl
@[simp] theorem Block.raise_bank : (b.raise k p n x).bank = b.bank := rfl
@[simp] theorem Block.raise_tib : (b.raise k p n x).tib = b.tib := rfl
@[simp] theorem Block.raise_tidx : (b.raise k p n x).tidx = b.tidx := rfl
@[simp] theorem Block.raise_hdr : (b.raise k p n x).hdr = b.hdr := rfl
@[simp] theorem Block.raise_pbc : (b.raise k p n x).pbc = b.pbc := rfl
@[simp] theorem Block.raise_gbc : (b.raise k p n x).gbc = b.gbc := rfl
@[simp] theorem Block.raise_tbuf : (b.raise k p n x).tbuf = b.tbuf := rfl
@[simp] theorem Block.raise_tilecount : (b.raise k p n x).tilecount = 0 := rfl
@[simp] theorem Block.raise_ecode : (b.raise k p n x).ecode = k := rfl
@[simp] theorem Block.raise_ephase : (b.raise k p n x).ephase = p := rfl
@[simp] theorem Block.raise_etile : (b.raise k p n x).etile = n := rfl
@[simp] theorem Block.raise_esrc : (b.raise k p n x).esrc = x := rfl
@[simp] theorem Block.raise_tsel : (b.raise k p n x).tsel = b.tsel := rfl
@[simp] theorem Block.raise_ts : (b.raise k p n x).ts = b.ts := rfl

@[simp] theorem Block.startRun_state : (b.startRun).state = .busy := rfl
@[simp] theorem Block.startRun_phase : (b.startRun).phase = .hdr := rfl
@[simp] theorem Block.startRun_rej : (b.startRun).rej = false := rfl
@[simp] theorem Block.startRun_pos : (b.startRun).pos = 0 := rfl
@[simp] theorem Block.startRun_bank : (b.startRun).bank = 0 := rfl
@[simp] theorem Block.startRun_tib : (b.startRun).tib = 0 := rfl
@[simp] theorem Block.startRun_tidx : (b.startRun).tidx = 0 := rfl
@[simp] theorem Block.startRun_hdr : (b.startRun).hdr = b.hdr := rfl
@[simp] theorem Block.startRun_pbc : (b.startRun).pbc = 0 := rfl
@[simp] theorem Block.startRun_gbc : (b.startRun).gbc = 0 := rfl
@[simp] theorem Block.startRun_tbuf : (b.startRun).tbuf = b.tbuf := rfl
@[simp] theorem Block.startRun_tilecount : (b.startRun).tilecount = 0 := rfl
@[simp] theorem Block.startRun_ecode : (b.startRun).ecode = .none := rfl
@[simp] theorem Block.startRun_ephase : (b.startRun).ephase = .none := rfl
@[simp] theorem Block.startRun_etile : (b.startRun).etile = 0 := rfl
@[simp] theorem Block.startRun_esrc : (b.startRun).esrc = 0 := rfl
@[simp] theorem Block.startRun_tsel : (b.startRun).tsel = b.tsel := rfl
@[simp] theorem Block.startRun_ts : (b.startRun).ts = b.ts := rfl

@[simp] theorem Block.complete_state : (b.complete n).state = .done := rfl
@[simp] theorem Block.complete_phase : (b.complete n).phase = .done := rfl
@[simp] theorem Block.complete_rej : (b.complete n).rej = b.rej := rfl
@[simp] theorem Block.complete_pos : (b.complete n).pos = b.pos := rfl
@[simp] theorem Block.complete_bank : (b.complete n).bank = b.bank := rfl
@[simp] theorem Block.complete_tib : (b.complete n).tib = b.tib := rfl
@[simp] theorem Block.complete_tidx : (b.complete n).tidx = b.tidx := rfl
@[simp] theorem Block.complete_hdr : (b.complete n).hdr = b.hdr := rfl
@[simp] theorem Block.complete_pbc : (b.complete n).pbc = b.pbc := rfl
@[simp] theorem Block.complete_gbc : (b.complete n).gbc = b.gbc := rfl
@[simp] theorem Block.complete_tbuf : (b.complete n).tbuf = b.tbuf := rfl
@[simp] theorem Block.complete_tilecount : (b.complete n).tilecount = n := rfl
@[simp] theorem Block.complete_ecode : (b.complete n).ecode = b.ecode := rfl
@[simp] theorem Block.complete_ephase : (b.complete n).ephase = b.ephase := rfl
@[simp] theorem Block.complete_etile : (b.complete n).etile = b.etile := rfl
@[simp] theorem Block.complete_esrc : (b.complete n).esrc = b.esrc := rfl
@[simp] theorem Block.complete_tsel : (b.complete n).tsel = b.tsel := rfl
@[simp] theorem Block.complete_ts : (b.complete n).ts = b.ts := rfl

@[simp] theorem State.withBlock_block : (s.withBlock c).block = c := rfl
@[simp] theorem State.withBlock_source : (s.withBlock c).source = s.source := rfl
@[simp] theorem State.withBlock_inputs : (s.withBlock c).inputs = s.inputs := rfl
@[simp] theorem State.withBlock_freeNext : (s.withBlock c).freeNext = s.freeNext := rfl
@[simp] theorem State.withBlock_ports : (s.withBlock c).ports = s.ports := rfl

@[simp] theorem State.quiet_block : (s.quiet).block = s.block := rfl
@[simp] theorem State.quiet_source : (s.quiet).source = s.source := rfl
@[simp] theorem State.quiet_inputs : (s.quiet).inputs = s.inputs := rfl
@[simp] theorem State.quiet_freeNext : (s.quiet).freeNext = s.freeNext := rfl
@[simp] theorem State.quiet_hRdata : (s.quiet).ports.hRdata = none := rfl
@[simp] theorem State.quiet_srcPending : (s.quiet).ports.srcPending = s.ports.srcPending := rfl
@[simp] theorem State.quiet_srcDone : (s.quiet).ports.srcDone = none := rfl
@[simp] theorem State.quiet_utIn : (s.quiet).ports.utIn = s.ports.utIn := rfl
@[simp] theorem State.quiet_utOut : (s.quiet).ports.utOut = s.ports.utOut := rfl

@[simp] theorem State.showRead_block : (s.showRead v).block = s.block := rfl
@[simp] theorem State.showRead_source : (s.showRead v).source = s.source := rfl
@[simp] theorem State.showRead_inputs : (s.showRead v).inputs = s.inputs := rfl
@[simp] theorem State.showRead_freeNext : (s.showRead v).freeNext = s.freeNext := rfl
@[simp] theorem State.showRead_hRdata : (s.showRead v).ports.hRdata = some v := rfl
@[simp] theorem State.showRead_srcPending : (s.showRead v).ports.srcPending = s.ports.srcPending := rfl
@[simp] theorem State.showRead_srcDone : (s.showRead v).ports.srcDone = none := rfl
@[simp] theorem State.showRead_utIn : (s.showRead v).ports.utIn = s.ports.utIn := rfl
@[simp] theorem State.showRead_utOut : (s.showRead v).ports.utOut = s.ports.utOut := rfl

@[simp] theorem State.holdRequest_block : (s.holdRequest q).block = s.block := rfl
@[simp] theorem State.holdRequest_source : (s.holdRequest q).source = s.source := rfl
@[simp] theorem State.holdRequest_inputs : (s.holdRequest q).inputs = s.inputs := rfl
@[simp] theorem State.holdRequest_freeNext : (s.holdRequest q).freeNext = s.freeNext := rfl
@[simp] theorem State.holdRequest_hRdata : (s.holdRequest q).ports.hRdata = none := rfl
@[simp] theorem State.holdRequest_srcPending : (s.holdRequest q).ports.srcPending = some q := rfl
@[simp] theorem State.holdRequest_srcDone : (s.holdRequest q).ports.srcDone = none := rfl
@[simp] theorem State.holdRequest_utIn : (s.holdRequest q).ports.utIn = s.ports.utIn := rfl
@[simp] theorem State.holdRequest_utOut : (s.holdRequest q).ports.utOut = s.ports.utOut := rfl

@[simp] theorem State.showTransaction_block : (s.showTransaction q r).block = s.block := rfl
@[simp] theorem State.showTransaction_source : (s.showTransaction q r).source = s.source := rfl
@[simp] theorem State.showTransaction_inputs : (s.showTransaction q r).inputs = s.inputs := rfl
@[simp] theorem State.showTransaction_freeNext : (s.showTransaction q r).freeNext = s.freeNext := rfl
@[simp] theorem State.showTransaction_hRdata : (s.showTransaction q r).ports.hRdata = none := rfl
@[simp] theorem State.showTransaction_srcPending : (s.showTransaction q r).ports.srcPending = none := rfl
@[simp] theorem State.showTransaction_srcDone : (s.showTransaction q r).ports.srcDone = some (q, r) := rfl
@[simp] theorem State.showTransaction_utIn : (s.showTransaction q r).ports.utIn = s.ports.utIn := rfl
@[simp] theorem State.showTransaction_utOut : (s.showTransaction q r).ports.utOut = s.ports.utOut := rfl

end Sys2Proof.Machine
end

