-- ==== Sys2Proof/Laws/Ops.lean ====
section
/-!
SUPPORT. One lemma for each shared operation that says everything it can do: the two source transactions,
what a response makes of the block, the tile store, the register map; and each meaning that issues a
transaction as an equation over the source, free of the response's unspecified bytes.
-/

namespace Sys2Proof.Machine

variable (s : State) (src : Source) (acc : Option Access) (a : SrcAddr) (k : Nat) (b : Block)

/-- A read the source does not answer (R247). -/
theorem State.srcRead16_stalled (h : s.source.stalls acc = true) :
    s.srcRead16 acc a = (s.holdRequest { op := .read, addr := a }, none) := by
  simp [State.srcRead16, h]

/-- A read the source answers (R63). -/
theorem State.srcRead16_answered (h : s.source.stalls acc = false) :
    s.srcRead16 acc a =
      ({ s.showTransaction { op := .read, addr := a } (.read (s.source.readResponse acc a s.freeNext)) with
          freeNext := s.freeNext + 1 },
        some (s.source.readResponse acc a s.freeNext)) := by
  simp [State.srcRead16, h]

/-- A seek the source does not answer (R247). -/
theorem State.srcSeek_stalled (h : s.source.stalls acc = true) :
    s.srcSeek acc a = (s.holdRequest { op := .seek, addr := a }, none) := by
  simp [State.srcSeek, h]

/-- A seek the source answers (R65). -/
theorem State.srcSeek_answered (h : s.source.stalls acc = false) :
    s.srcSeek acc a =
      (s.showTransaction { op := .seek, addr := a } (.seek (s.source.seekResponse acc)),
        some (s.source.seekResponse acc)) := by
  simp [State.srcSeek, h]

/-- A stall names one access (R66). -/
theorem Source.stalls_some (x : Access) : src.stalls (some x) = true ↔ src.stall = some x := by
  simp [Source.stalls]

theorem Source.stalls_some_false (x : Access) : src.stalls (some x) = false ↔ src.stall ≠ some x := by
  simp [Source.stalls]

@[simp] theorem Source.stalls_none : src.stalls none = false := rfl

@[simp] theorem Source.failCode_some (x : Access) : src.failCode (some x) = src.fail.code? x := rfl

@[simp] theorem Source.failCode_none : src.failCode none = none := rfl

/-- COUNT as a number (R63). -/
theorem Source.count_toNat : (BitVec.ofNat 5 (src.deliverable a)).toNat = min 16 (src.image.len - a.toNat) := by
  simp only [Source.deliverable, BitVec.toNat_ofNat]
  omega

/-- COUNT is 16 exactly when the sixteen bytes lie inside the extent (R63). -/
theorem Source.count_full : BitVec.ofNat 5 (src.deliverable a) = 16#5 ↔ a.toNat + 16 ≤ src.image.len := by
  rw [← BitVec.toNat_inj, Source.count_toNat]
  simp
  omega

/-- COUNT is 0 exactly when no byte lies at the address (R63). -/
theorem Source.count_empty : BitVec.ofNat 5 (src.deliverable a) = 0#5 ↔ src.image.len ≤ a.toNat := by
  rw [← BitVec.toNat_inj, Source.count_toNat]
  simp
  omega

/-- The response of a failed read (R63). -/
theorem Source.readResponse_failed (c : Byte) (h : src.failCode acc = some c) :
    (src.readResponse acc a k).fail = true ∧ (src.readResponse acc a k).fcode = c := by
  simp [Source.readResponse, h]

/-- The response of a read that does not fail (R63). -/
theorem Source.readResponse_answered (h : src.failCode acc = none) :
    (src.readResponse acc a k).fail = false ∧ (src.readResponse acc a k).fcode = 0 ∧
      (src.readResponse acc a k).past = decide (src.image.len < a.toNat) ∧
      (src.readResponse acc a k).count = BitVec.ofNat 5 (src.deliverable a) := by
  simp [Source.readResponse, h]

/-- A delivered byte is the source's (R63). -/
theorem Source.readResponse_byte (h : src.failCode acc = none) (m : Fin 16) (hm : m.val < src.deliverable a) :
    (src.readResponse acc a k).data[m.val] = src.image.byte (a.toNat + m.val) := by
  simp [Source.readResponse, h, hm]

/-- A full read delivers the sixteen bytes of the source, and no unspecified one (R63). -/
theorem Source.readResponse_full (h : src.failCode acc = none) (hl : a.toNat + 16 ≤ src.image.len) :
    (src.readResponse acc a k).data = src.image.bytes16 a.toNat := by
  have hd : src.deliverable a = 16 := by
    simp only [Source.deliverable]
    omega
  simp [Source.readResponse, h, Image.bytes16, hd]

/-- What HDR_READ makes of the block, over the source alone (R140). -/
theorem Block.takeHeader_readResponse :
    b.takeHeader (src.readResponse acc a k) =
      match src.failCode acc with
      | some c => b.raise .sourceFailure .headerRead 0 c
      | none =>
        if a.toNat + 16 ≤ src.image.len then
          { b with hdr := src.image.bytes16 a.toNat, pos := b.pos + 16, phase := .magic }
        else b.raise .truncatedInput .headerRead 0 0 := by
  cases h : src.failCode acc with
  | some c =>
    obtain ⟨h1, h2⟩ := src.readResponse_failed acc a k c h
    simp [Block.takeHeader, h1, h2]
  | none =>
    obtain ⟨h1, -, -, h4⟩ := src.readResponse_answered acc a k h
    by_cases hl : a.toNat + 16 ≤ src.image.len
    · simp [Block.takeHeader, h1, h4, (src.count_full a).2 hl, hl, src.readResponse_full acc a k h hl]
    · have hc : ¬ BitVec.ofNat 5 (src.deliverable a) = 16#5 := fun e => hl ((src.count_full a).1 e)
      simp [Block.takeHeader, h1, h4, hc, hl]

/-- What TILE_READ makes of the block, over the source alone (R160). -/
theorem Block.takeTile_readResponse :
    b.takeTile (src.readResponse acc a k) =
      match src.failCode acc with
      | some c => b.raise .sourceFailure .tileRead b.tidx c
      | none =>
        if src.image.len < a.toNat then b.raise .truncatedInput .tileRead b.tidx 0
        else if a.toNat + 16 ≤ src.image.len then
          { b with tbuf := src.image.bytes16 a.toNat, pos := b.pos + 16, phase := .tdec }
        else if src.image.len = a.toNat then b.complete b.tidx
        else b.raise .truncatedInput .tileRead b.tidx 0 := by
  cases h : src.failCode acc with
  | some c =>
    obtain ⟨h1, h2⟩ := src.readResponse_failed acc a k c h
    simp [Block.takeTile, h1, h2]
  | none =>
    obtain ⟨h1, -, h3, h4⟩ := src.readResponse_answered acc a k h
    by_cases hp : src.image.len < a.toNat
    · simp [Block.takeTile, h1, h3, hp]
    · by_cases hl : a.toNat + 16 ≤ src.image.len
      · simp [Block.takeTile, h1, h3, h4, hp, (src.count_full a).2 hl, hl, src.readResponse_full acc a k h hl]
      · have hc : ¬ BitVec.ofNat 5 (src.deliverable a) = 16#5 := fun e => hl ((src.count_full a).1 e)
        by_cases he : src.image.len = a.toNat
        · have h0 : BitVec.ofNat 5 (src.deliverable a) = 0#5 := (src.count_empty a).2 (by omega)
          simp [Block.takeTile, h1, h3, h4, h0, he]
        · have h0 : ¬ BitVec.ofNat 5 (src.deliverable a) = 0#5 :=
            fun e => he (by have := (src.count_empty a).1 e; omega)
          simp [Block.takeTile, h1, h3, h4, hp, hc, hl, h0, he]

/-- What BANK_SEEK makes of the block, over the source alone (R151). -/
theorem Block.takeSeek_seekResponse :
    b.takeSeek a (src.seekResponse acc) =
      match src.failCode acc with
      | some c => b.raise .sourceFailure .seek 0 c
      | none => { b with pos := a, phase := .tread } := by
  cases h : src.failCode acc <;> simp [Block.takeSeek, Source.seekResponse, h]

/-- HDR_READ of a source that stalls it (R247). -/
theorem execHdrRead_stalled (h : s.source.stall = some .hdr) :
    execHdrRead s = .next (s.holdRequest { op := .read, addr := s.block.pos }) := by
  simp [execHdrRead, State.srcRead16_stalled s _ _ ((s.source.stalls_some _).2 h)]

/-- HDR_READ of a source that answers it (R140). -/
theorem execHdrRead_answered (h : s.source.stall ≠ some .hdr) :
    execHdrRead s = .next ((s.srcRead16 (some .hdr) s.block.pos).1.withBlock
      (s.block.takeHeader (s.source.readResponse (some .hdr) s.block.pos s.freeNext))) := by
  simp [execHdrRead, State.srcRead16_answered s _ _ ((s.source.stalls_some_false _).2 h)]

/-- TILE_READ of a source that stalls it (R247). -/
theorem execTileRead_stalled (h : s.source.stall = some (.tile s.block.tidx.toNat)) :
    execTileRead s = .next (s.holdRequest { op := .read, addr := s.block.pos }) := by
  simp [execTileRead, State.srcRead16_stalled s _ _ ((s.source.stalls_some _).2 h)]

/-- TILE_READ of a source that answers it (R160). -/
theorem execTileRead_answered (h : s.source.stall ≠ some (.tile s.block.tidx.toNat)) :
    execTileRead s = .next ((s.srcRead16 (some (.tile s.block.tidx.toNat)) s.block.pos).1.withBlock
      (s.block.takeTile
        (s.source.readResponse (some (.tile s.block.tidx.toNat)) s.block.pos s.freeNext))) := by
  simp [execTileRead, State.srcRead16_answered s _ _ ((s.source.stalls_some_false _).2 h)]

/-- BANK_SEEK of a source that stalls it (R247). -/
theorem execBankSeek_stalled (h : s.source.stall = some .seek) :
    execBankSeek s = .next (s.holdRequest { op := .seek, addr := gfxBase s.block.pbc }) := by
  simp [execBankSeek, State.srcSeek_stalled s _ _ ((s.source.stalls_some _).2 h)]

/-- BANK_SEEK of a source that answers it (R151). -/
theorem execBankSeek_answered (h : s.source.stall ≠ some .seek) :
    execBankSeek s = .next ((s.srcSeek (some .seek) (gfxBase s.block.pbc)).1.withBlock
      (s.block.takeSeek (gfxBase s.block.pbc) (s.source.seekResponse (some .seek)))) := by
  simp [execBankSeek, State.srcSeek_answered s _ _ ((s.source.stalls_some_false _).2 h)]

/-- The store of an entry that exists (R68). -/
theorem Block.storeTile_exists (t : TileIdx) (w : Entry) (h : t.toNat < Config.tileStoreSize) :
    b.storeTile t w = some { b with ts := b.ts.write t.toNat w } := by
  simp [Block.storeTile, h]

/-- The load of an entry that exists (R127). -/
theorem Block.loadTile_exists (t : TileIdx) (h : t.toNat < Config.tileStoreSize) :
    b.loadTile t = some (b.ts.read t.toNat) := by
  simp [Block.loadTile, h]

/-- TROW outside DONE or at and above TILECOUNT (R127). -/
theorem Block.trow_gated (h : ¬(b.state = .done ∧ b.selTile < b.tilecount)) : b.trow = some 0 := by
  simp only [Block.trow, h, if_false]

/-- TROW in DONE below TILECOUNT (R127). -/
theorem Block.trow_selected (h : b.state = .done) (ht : b.selTile < b.tilecount)
    (hn : b.selTile.toNat < Config.tileStoreSize) :
    b.trow =
      some (((b.ts.read b.selTile.toNat).extractLsb' (16 * b.selRow.toNat) 16).setWidth 32) := by
  simp [Block.trow, h, ht, b.loadTile_exists b.selTile hn]

/-- TROW answers when TILECOUNT is at most the number of entries. -/
theorem Block.trow_answers (h : b.tilecount.toNat ≤ Config.tileStoreSize) : ∃ v, b.trow = some v := by
  by_cases hg : b.state = .done ∧ b.selTile < b.tilecount
  · have hlt : b.selTile.toNat < b.tilecount.toNat := hg.2
    exact ⟨_, b.trow_selected hg.1 hg.2 (by omega)⟩
  · exact ⟨_, b.trow_gated hg⟩

/-- Every register answers when TILECOUNT is at most the number of entries (R120, R124). -/
theorem Block.readReg_answers (n : BitVec 5) (h : b.tilecount.toNat ≤ Config.tileStoreSize) :
    ∃ v, b.readReg n = some v := by
  obtain ⟨w, hw⟩ := b.trow_answers h
  simp only [Block.readReg]
  split <;> first | exact ⟨w, hw⟩ | exact ⟨_, rfl⟩

/-- The loop control leaves the tile store alone (R184). -/
@[simp] theorem Block.advanceTile_ts : b.advanceTile.ts = b.ts := by
  unfold Block.advanceTile
  split
  · split <;> rfl
  · rfl

/-- TILE_DECODE at an index that exists (R184). -/
theorem execTileDecode_exists (h : s.block.tidx.toNat < Config.tileStoreSize) :
    execTileDecode s = .next (s.quiet.withBlock
      (Block.advanceTile { s.block with
        ts := s.block.ts.write s.block.tidx.toNat (entry s.block.tbuf) })) := by
  simp only [execTileDecode, s.block.storeTile_exists s.block.tidx (entry s.block.tbuf) h]

/-- The graphics-region address is exact (R150). -/
theorem gfxBase_toNat (p : Byte) : (gfxBase p).toNat = 16 + p.toNat * 16384 := by
  have hp : p.toNat < 256 := p.isLt
  simp only [gfxBase, Config.headerSize, Config.prgBankSize, BitVec.toNat_ofNat]
  omega

end Sys2Proof.Machine
end

