-- ==== Sys2Proof/Laws/PerInstr.lean ====
section
/-!
SUPPORT. Statements made of every operation, one lemma per constructor: the word of an operation has the
format, the fixed bits and the width of its row in spec/opcode_table.json (spec/30_encoding.md rule R103).
-/

namespace Sys2Proof.Laws.TableRow

/-- A word with every bit cleared that the mask does not name. -/
def masked (mask : Nat) : PortWord → PortWord
  | .hostW w => .hostW (w &&& BitVec.ofNat 38 mask)
  | .hostR w => .hostR (w &&& BitVec.ofNat 6 mask)
  | .phase w => .phase (w &&& BitVec.ofNat 4 mask)
  | .srcReq w => .srcReq (w &&& BitVec.ofNat 24 mask)
  | .comb w => .comb (w &&& BitVec.ofNat 128 mask)

/-- The "mask" column of the row. -/
def mask : Instr → Nat
  | .start _ => 0x3F000000FF
  | .rdreg _ => 0x20
  | .wrtsel _ _ _ => 0x3F00000000
  | .rdrow => 0x3F
  | .hdrRead => 0xF
  | .magicCheck => 0xF
  | .countLatch => 0xF
  | .gfxCheck => 0xF
  | .bankSeek => 0xF
  | .tileRead => 0xF
  | .tileDecode => 0xF
  | .srcRead _ => 0x800000
  | .srcSeek _ => 0x800000
  | .unpack _ => 0x0

/-- The "format" and "match" columns of the row. -/
def pattern : Instr → PortWord
  | .start _ => .hostW 0x2000000001
  | .rdreg _ => .hostR 0x00
  | .wrtsel _ _ _ => .hostW 0x2700000000
  | .rdrow => .hostR 0x08
  | .hdrRead => .phase 0x1
  | .magicCheck => .phase 0x2
  | .countLatch => .phase 0x3
  | .gfxCheck => .phase 0x4
  | .bankSeek => .phase 0x5
  | .tileRead => .phase 0x6
  | .tileDecode => .phase 0x7
  | .srcRead _ => .srcReq 0x000000
  | .srcSeek _ => .srcReq 0x800000
  | .unpack _ => .comb 0x0

/-- The word of `i` matches its row under the row's mask. -/
abbrev Statement (i : Instr) : Prop := masked (mask i) (encode i) = pattern i

/-- Masking a concatenation masks its parts. -/
theorem and_append {m n : Nat} (x p : BitVec m) (y q : BitVec n) : (x ++ y) &&& (p ++ q) = (x &&& p) ++ (y &&& q) := by
  apply BitVec.eq_of_getLsbD_eq
  intro k hk
  rw [BitVec.getLsbD_and, BitVec.getLsbD_append, BitVec.getLsbD_append, BitVec.getLsbD_append,
    BitVec.getLsbD_and, BitVec.getLsbD_and]
  split <;> rfl

theorem start (x : BitVec 24) : Statement (.start x) := by
  apply congrArg PortWord.hostW
  rw [show BitVec.ofNat 38 (mask (.start x)) = 1#1 ++ 0x1F#5 ++ 0#24 ++ 0xFF#8 by simp only [mask]; decide]
  refine (and_append _ _ _ _).trans ?_
  simp only [and_append, BitVec.and_zero]
  decide

theorem rdreg (n : BitVec 5) : Statement (.rdreg n) := by
  apply congrArg PortWord.hostR
  rw [show BitVec.ofNat 6 (mask (.rdreg n)) = 1#1 ++ 0#5 by simp only [mask]; decide]
  refine (and_append _ _ _ _).trans ?_
  simp only [BitVec.and_zero]
  decide

theorem wrtsel (x : BitVec 12) (row : BitVec 3) (tile : TileIdx) : Statement (.wrtsel x row tile) := by
  apply congrArg PortWord.hostW
  rw [show BitVec.ofNat 38 (mask (.wrtsel x row tile)) = 1#1 ++ 0x1F#5 ++ 0#12 ++ 0#3 ++ 0#17 by simp only [mask]; decide]
  refine (and_append _ _ _ _).trans ?_
  simp only [and_append, BitVec.and_zero]
  decide

theorem rdrow : Statement .rdrow := by decide

theorem hdrRead : Statement .hdrRead := by decide

theorem magicCheck : Statement .magicCheck := by decide

theorem countLatch : Statement .countLatch := by decide

theorem gfxCheck : Statement .gfxCheck := by decide

theorem bankSeek : Statement .bankSeek := by decide

theorem tileRead : Statement .tileRead := by decide

theorem tileDecode : Statement .tileDecode := by decide

theorem srcRead (a : SrcAddr) : Statement (.srcRead a) := by
  apply congrArg PortWord.srcReq
  rw [show BitVec.ofNat 24 (mask (.srcRead a)) = 1#1 ++ 0#23 by simp only [mask]; decide]
  refine (and_append _ _ _ _).trans ?_
  simp only [BitVec.and_zero]
  decide

theorem srcSeek (a : SrcAddr) : Statement (.srcSeek a) := by
  apply congrArg PortWord.srcReq
  rw [show BitVec.ofNat 24 (mask (.srcSeek a)) = 1#1 ++ 0#23 by simp only [mask]; decide]
  refine (and_append _ _ _ _).trans ?_
  simp only [BitVec.and_zero]
  decide

theorem unpack (b : BitVec 128) : Statement (.unpack b) := by
  apply congrArg PortWord.comb
  exact BitVec.and_zero

end Sys2Proof.Laws.TableRow
end

