-- ==== Sys2Proof/Laws/Step.lean ====
section
/-!
SUPPORT. Everything a step can be, said once: the phase step of PHASE, one of the host's accesses, a
source-port transaction that no phase presents, the unpack port, reset, or attaching a source. A proof about every
step is one goal for each.
-/

namespace Sys2Proof.Machine

variable (s : State)

/-- The machine with its oldest input, if any, taken up. -/
def State.consumed : State := { s with inputs := s.inputs.tail }

@[simp] theorem State.consumed_block : s.consumed.block = s.block := rfl
@[simp] theorem State.consumed_source : s.consumed.source = s.source := rfl
@[simp] theorem State.consumed_ports : s.consumed.ports = s.ports := rfl
@[simp] theorem State.consumed_inputs : s.consumed.inputs = s.inputs.tail := rfl
@[simp] theorem State.consumed_freeNext : s.consumed.freeNext = s.freeNext := rfl

/-- The step of the current phase (R104). -/
def phaseStep : Host.Outcome State Fault Refusal :=
  match s.block.phase with
  | .idle => execIdle s
  | .hdr => execHdrRead s
  | .magic => execMagicCheck s
  | .counts => execCountLatch s
  | .gfxchk => execGfxCheck s
  | .seek => execBankSeek s
  | .tread => execTileRead s
  | .tdec => execTileDecode s
  | .done => execIdle s
  | .error => execIdle s

theorem runFetched_phaseStep (t : State) (h : t.block.phase = s.block.phase) :
    runFetched (.word (.phase s.block.phase.code)) t = phaseStep t := by
  rw [← h]
  unfold phaseStep
  cases t.block.phase <;> rfl

/-- With nothing coming in, a step is the step of the current phase. -/
theorem step_phaseStep (h : s.inputs = []) : step s = phaseStep s := by
  rw [step_nil s h, runFetched_phaseStep s s rfl]

/-- Consuming an input that is not there changes nothing. -/
theorem State.consumed_nil (h : s.inputs = []) : s.consumed = s := by
  cases s
  simp_all [State.consumed]

/-- A transaction is an access of the run only if the current phase presents it. -/
theorem Block.accessOf_some (b : Block) (q : SrcRequest) (x : Access) (h : b.accessOf q = some x) :
    b.request? = some (x, q) := by
  unfold Block.accessOf at h
  split at h
  · rename_i acc p e
    split at h
    · rename_i e2
      cases h
      rw [e, e2]
    · cases h
  · cases h

/-- The read that the current phase presents is its phase step (R236). -/
theorem execSrcRead_presented (a : SrcAddr)
    (h : (s.block.accessOf { op := .read, addr := a }).isSome = true) : execSrcRead a s = phaseStep s := by
  obtain ⟨acc, h⟩ := Option.isSome_iff_exists.1 h
  have hr := s.block.accessOf_some _ acc h
  unfold execSrcRead phaseStep
  rw [h]
  cases hp : s.block.phase <;> simp only [Block.request?, hp, Option.some.injEq, Prod.mk.injEq,
    SrcRequest.mk.injEq, reduceCtorEq, false_and, and_false, true_and] at hr
  all_goals
    obtain ⟨rfl, rfl⟩ := hr
    rfl

/-- The seek that P_SEEK presents is BANK_SEEK (R236). -/
theorem execSrcSeek_presented (a : SrcAddr)
    (h : (s.block.accessOf { op := .seek, addr := a }).isSome = true) : execSrcSeek a s = phaseStep s := by
  obtain ⟨acc, h⟩ := Option.isSome_iff_exists.1 h
  have hr := s.block.accessOf_some _ acc h
  unfold execSrcSeek phaseStep
  rw [h]
  cases hp : s.block.phase <;> simp only [Block.request?, hp, Option.some.injEq, Prod.mk.injEq,
    SrcRequest.mk.injEq, reduceCtorEq, false_and, and_false, true_and] at hr
  obtain ⟨rfl, rfl⟩ := hr
  rfl

/-- A read that no phase presents (log 9). -/
theorem execSrcRead_lone (a : SrcAddr) (h : s.block.accessOf { op := .read, addr := a } = none) :
    execSrcRead a s = if s.sourceInUse then .fault .sourceInUse else .next (s.srcRead16 none a).1 := by
  simp only [execSrcRead, h]

/-- A seek that no phase presents (log 9). -/
theorem execSrcSeek_lone (a : SrcAddr) (h : s.block.accessOf { op := .seek, addr := a } = none) :
    execSrcSeek a s = if s.sourceInUse then .fault .sourceInUse else .next (s.srcSeek none a).1 := by
  simp only [execSrcSeek, h]

/-- The port is free exactly outside a run with no request held (R236, R241). -/
theorem State.sourceInUse_false :
    s.sourceInUse = false ↔ s.block.state ≠ .busy ∧ s.ports.srcPending = none := by
  simp [State.sourceInUse]

/-- What comes in first when the sequencer is next. -/
theorem State.SequencerNext.head (h : s.SequencerNext) :
    s.inputs.head? = none ∨ s.inputs.head? = some .sequencer ∨
      ∃ op a, s.inputs.head? = some (.sourcePort op a) := by
  rcases h with h | h | ⟨op, a, h, -⟩
  · exact .inl (by simp [h])
  · exact .inr (.inl h)
  · exact .inr (.inr ⟨op, a, h⟩)

/-- Every response to a read is the one R63 gives. -/
theorem Source.readResponse_answers (src : Source) (acc : Option Access) (a : SrcAddr) (k : Nat) :
    (src.readResponse acc a k).Answers src acc a := by
  refine ⟨fun c h => src.readResponse_failed acc a k c h, fun h => ?_⟩
  obtain ⟨h1, h2, h3, h4⟩ := src.readResponse_answered acc a k h
  have hc : (src.readResponse acc a k).count.toNat = src.deliverable a := by
    rw [h4, src.count_toNat a, Source.deliverable]
  refine ⟨h1, h2, by simp [h3], hc, fun m hm => ?_⟩
  exact src.readResponse_byte acc a k h m (hc ▸ hm)

/-- Every response to a seek is the one R65 gives. -/
theorem Source.seekResponse_answers (src : Source) (acc : Option Access) :
    (src.seekResponse acc).Answers src acc := by
  constructor <;> intros <;> simp_all [Source.seekResponse]

/-- When the sequencer is next, a step is the step of the current phase, its turn consumed. -/
theorem step_sequencer (h : s.SequencerNext) : step s = phaseStep s.consumed := by
  cases hi : s.inputs with
  | nil => rw [step_phaseStep s hi, s.consumed_nil hi]
  | cons x rest =>
    have e : ({ s with inputs := rest } : State) = s.consumed := by simp [State.consumed, hi]
    rw [step_cons s rest x hi, e]
    rcases h with h | h | ⟨op, a, h, hacc⟩
    · simp [hi] at h
    · obtain rfl : x = .sequencer := by simpa [hi] using h
      exact runFetched_phaseStep s s.consumed rfl
    · obtain rfl : x = .sourcePort op a := by simpa [hi] using h
      rw [Input.present, runFetched_source]
      cases op with
      | true => exact execSrcSeek_presented s.consumed a hacc
      | false => exact execSrcRead_presented s.consumed a hacc

/-- The cases of a step, for any claim `P` about its outcome. -/
theorem step_cases (P : Host.Outcome State Fault Refusal → Prop)
    (phase : s.SequencerNext → P (phaseStep s.consumed))
    (start : ∀ v : Word, s.inputs.head? = some (.host true 0 v) → v.extractLsb' 0 8 = 0x01#8 →
      P (execStart (v.extractLsb' 8 24) s.consumed))
    (reserved : ∀ v : Word, s.inputs.head? = some (.host true 0 v) → v.extractLsb' 0 8 ≠ 0x01#8 →
      P (execReservedCommand s.consumed))
    (wrtsel : ∀ v : Word, s.inputs.head? = some (.host true 7 v) →
      P (execWrtsel (v.extractLsb' 20 12) (v.extractLsb' 17 3) (v.extractLsb' 0 17) s.consumed))
    (ignored : ∀ (idx : BitVec 5) (v : Word), s.inputs.head? = some (.host true idx v) → idx ≠ 0 → idx ≠ 7 →
      P (execIgnoredWrite s.consumed))
    (rdrow : ∀ v : Word, s.inputs.head? = some (.host false 8 v) → P (execRdrow s.consumed))
    (rdreg : ∀ (idx : BitVec 5) (v : Word), s.inputs.head? = some (.host false idx v) → idx ≠ 8 →
      P (execRdreg idx s.consumed))
    (srcRead : ∀ a : SrcAddr, s.inputs.head? = some (.sourcePort false a) →
      s.block.accessOf { op := .read, addr := a } = none →
      P (if s.sourceInUse then .fault .sourceInUse else .next (s.consumed.srcRead16 none a).1))
    (srcSeek : ∀ a : SrcAddr, s.inputs.head? = some (.sourcePort true a) →
      s.block.accessOf { op := .seek, addr := a } = none →
      P (if s.sourceInUse then .fault .sourceInUse else .next (s.consumed.srcSeek none a).1))
    (unpack : ∀ b : BitVec 128, s.inputs.head? = some (.unpackPort b) → P (execUnpack b s.consumed))
    (reset : s.inputs.head? = some .reset → P (execReset s.consumed))
    (attach : ∀ src : Source, s.inputs.head? = some (.attach src) → P (execAttach src s.consumed)) :
    P (step s) := by
  cases h : s.inputs with
  | nil =>
    rw [step_sequencer s (.inl h)]
    exact phase (.inl h)
  | cons x rest =>
    have e : ({ s with inputs := rest } : State) = s.consumed := by simp [State.consumed, h]
    have hd : s.inputs.head? = some x := by simp [h]
    rw [step_cons s rest x h, e]
    cases x with
    | sequencer =>
      rw [Input.present, runFetched_phaseStep s s.consumed rfl]
      exact phase (.inr (.inl hd))
    | host we idx v =>
      rw [Input.present]
      cases we with
      | true =>
        by_cases h0 : idx = 0
        · subst h0
          rw [runFetched_write_cmd]
          split
          · exact start v hd ‹_›
          · exact reserved v hd ‹_›
        · by_cases h7 : idx = 7
          · subst h7
            rw [runFetched_write_tsel]
            exact wrtsel v hd
          · rw [runFetched_write_other _ idx v h0 h7]
            exact ignored idx v hd h0 h7
      | false =>
        rw [runFetched_read]
        split
        · subst idx
          exact rdrow v hd
        · exact rdreg idx v hd ‹_›
    | sourcePort op a =>
      rw [Input.present, runFetched_source]
      cases op with
      | true =>
        cases hacc : s.block.accessOf { op := .seek, addr := a } with
        | some acc =>
          have hs : (s.block.accessOf { op := .seek, addr := a }).isSome = true := by simp [hacc]
          simp only [if_true]
          rw [execSrcSeek_presented s.consumed a hs]
          exact phase (.inr (.inr ⟨true, a, hd, hs⟩))
        | none =>
          simp only [if_true]
          rw [execSrcSeek_lone s.consumed a hacc]
          exact srcSeek a hd hacc
      | false =>
        cases hacc : s.block.accessOf { op := .read, addr := a } with
        | some acc =>
          have hs : (s.block.accessOf { op := .read, addr := a }).isSome = true := by simp [hacc]
          simp only [Bool.false_eq_true, if_false]
          rw [execSrcRead_presented s.consumed a hs]
          exact phase (.inr (.inr ⟨false, a, hd, hs⟩))
        | none =>
          simp only [Bool.false_eq_true, if_false]
          rw [execSrcRead_lone s.consumed a hacc]
          exact srcRead a hd hacc
    | unpackPort b => exact unpack b hd
    | reset => exact reset hd
    | attach src => exact attach src hd

/-- A source transaction changes only the ports and the free-value counter (R72). -/
theorem State.srcRead16_frame (acc : Option Access) (a : SrcAddr) :
    (s.srcRead16 acc a).1.block = s.block ∧ (s.srcRead16 acc a).1.source = s.source ∧
      (s.srcRead16 acc a).1.inputs = s.inputs ∧ (s.srcRead16 acc a).1.ports.utIn = s.ports.utIn ∧
      (s.srcRead16 acc a).1.ports.utOut = s.ports.utOut := by
  cases h : s.source.stalls acc with
  | true => simp [State.srcRead16_stalled s acc a h]
  | false => simp [State.srcRead16_answered s acc a h]

theorem State.srcSeek_frame (acc : Option Access) (a : SrcAddr) :
    (s.srcSeek acc a).1.block = s.block ∧ (s.srcSeek acc a).1.source = s.source ∧
      (s.srcSeek acc a).1.inputs = s.inputs ∧ (s.srcSeek acc a).1.ports.utIn = s.ports.utIn ∧
      (s.srcSeek acc a).1.ports.utOut = s.ports.utOut := by
  cases h : s.source.stalls acc with
  | true => simp [State.srcSeek_stalled s acc a h]
  | false => simp [State.srcSeek_answered s acc a h]

/-- What a phase step makes of the block, over the source alone: the block waits (an idle phase, or a
source that does not answer), or the rule of its phase applies. -/
inductive Block.PhaseStep (src : Source) (b : Block) : Block → Prop
  | wait : Block.PhaseStep src b b
  | header (h : b.phase = .hdr) :
    Block.PhaseStep src b
      (match src.fail.code? .hdr with
      | some c => b.raise .sourceFailure .headerRead 0 c
      | none =>
        if b.pos.toNat + 16 ≤ src.image.len then
          { b with hdr := src.image.bytes16 b.pos.toNat, pos := b.pos + 16, phase := .magic }
        else b.raise .truncatedInput .headerRead 0 0)
  | magic (h : b.phase = .magic) :
    Block.PhaseStep src b
      (if magicMatches b.hdr then { b with phase := .counts } else b.raise .invalidFormat .none 0 0)
  | counts (h : b.phase = .counts) :
    Block.PhaseStep src b { b with pbc := b.hdr[4], gbc := b.hdr[5], phase := .gfxchk }
  | gfx (h : b.phase = .gfxchk) :
    Block.PhaseStep src b
      (if b.gbc = 0 then b.raise .unsupportedGraphicsStorage .none 0 0 else { b with phase := .seek })
  | seek (h : b.phase = .seek) :
    Block.PhaseStep src b
      (match src.fail.code? .seek with
      | some c => b.raise .sourceFailure .seek 0 c
      | none => { b with pos := gfxBase b.pbc, phase := .tread })
  | tile (h : b.phase = .tread) :
    Block.PhaseStep src b
      (match src.fail.code? (.tile b.tidx.toNat) with
      | some c => b.raise .sourceFailure .tileRead b.tidx c
      | none =>
        if src.image.len < b.pos.toNat then b.raise .truncatedInput .tileRead b.tidx 0
        else if b.pos.toNat + 16 ≤ src.image.len then
          { b with tbuf := src.image.bytes16 b.pos.toNat, pos := b.pos + 16, phase := .tdec }
        else if src.image.len = b.pos.toNat then b.complete b.tidx
        else b.raise .truncatedInput .tileRead b.tidx 0)
  | decode (h : b.phase = .tdec) (ht : b.tidx.toNat < Config.tileStoreSize) :
    Block.PhaseStep src b
      (Block.advanceTile { b with ts := b.ts.write b.tidx.toNat (entry b.tbuf) })

/-- A phase step that answers leaves the surroundings alone and makes one of the cases of the block. -/
theorem phaseStep_next (t : State) (h : phaseStep s = .next t) :
    Block.PhaseStep s.source s.block t.block ∧ t.source = s.source ∧ t.inputs = s.inputs ∧
      t.ports.utIn = s.ports.utIn ∧ t.ports.utOut = s.ports.utOut := by
  unfold phaseStep at h
  split at h
  · cases h; exact ⟨.wait, rfl, rfl, rfl, rfl⟩
  · rename_i hp
    by_cases hs : s.source.stall = some .hdr
    · rw [execHdrRead_stalled s hs] at h; cases h; exact ⟨.wait, rfl, rfl, rfl, rfl⟩
    · rw [execHdrRead_answered s hs] at h
      cases h
      obtain ⟨-, f⟩ := s.srcRead16_frame (some .hdr) s.block.pos
      refine ⟨?_, f⟩
      rw [State.withBlock_block, Block.takeHeader_readResponse]
      exact .header hp
  · rename_i hp
    have e : execMagicCheck s = .next (s.quiet.withBlock
        (if magicMatches s.block.hdr then { s.block with phase := .counts }
         else s.block.raise .invalidFormat .none 0 0)) := by
      unfold execMagicCheck; split <;> rfl
    rw [e] at h
    cases h
    exact ⟨.magic hp, rfl, rfl, rfl, rfl⟩
  · rename_i hp
    cases h
    exact ⟨.counts hp, rfl, rfl, rfl, rfl⟩
  · rename_i hp
    have e : execGfxCheck s = .next (s.quiet.withBlock
        (if s.block.gbc = 0 then s.block.raise .unsupportedGraphicsStorage .none 0 0
         else { s.block with phase := .seek })) := by
      unfold execGfxCheck; split <;> rfl
    rw [e] at h
    cases h
    exact ⟨.gfx hp, rfl, rfl, rfl, rfl⟩
  · rename_i hp
    by_cases hs : s.source.stall = some .seek
    · rw [execBankSeek_stalled s hs] at h; cases h; exact ⟨.wait, rfl, rfl, rfl, rfl⟩
    · rw [execBankSeek_answered s hs] at h
      cases h
      obtain ⟨-, f⟩ := s.srcSeek_frame (some .seek) (gfxBase s.block.pbc)
      refine ⟨?_, f⟩
      rw [State.withBlock_block, Block.takeSeek_seekResponse]
      exact .seek hp
  · rename_i hp
    by_cases hs : s.source.stall = some (.tile s.block.tidx.toNat)
    · rw [execTileRead_stalled s hs] at h; cases h; exact ⟨.wait, rfl, rfl, rfl, rfl⟩
    · rw [execTileRead_answered s hs] at h
      cases h
      obtain ⟨-, f⟩ := s.srcRead16_frame (some (.tile s.block.tidx.toNat)) s.block.pos
      refine ⟨?_, f⟩
      rw [State.withBlock_block, Block.takeTile_readResponse]
      exact .tile hp
  · rename_i hp
    by_cases ht : s.block.tidx.toNat < Config.tileStoreSize
    · rw [execTileDecode_exists s ht] at h
      cases h
      exact ⟨.decode hp ht, rfl, rfl, rfl, rfl⟩
    · simp [execTileDecode, Block.storeTile, ht] at h
  · cases h; exact ⟨.wait, rfl, rfl, rfl, rfl⟩
  · cases h; exact ⟨.wait, rfl, rfl, rfl, rfl⟩

/-- No phase step writes REJ or TSEL (R23, R36). -/
theorem Block.PhaseStep.keeps {src : Source} {b c : Block} (h : Block.PhaseStep src b c) :
    c.rej = b.rej ∧ c.tsel = b.tsel := by
  cases h with
  | wait => exact ⟨rfl, rfl⟩
  | header => split <;> (try split) <;> exact ⟨rfl, rfl⟩
  | magic => split <;> exact ⟨rfl, rfl⟩
  | counts => exact ⟨rfl, rfl⟩
  | gfx => split <;> exact ⟨rfl, rfl⟩
  | seek => split <;> exact ⟨rfl, rfl⟩
  | tile =>
    split
    · exact ⟨rfl, rfl⟩
    · split
      · exact ⟨rfl, rfl⟩
      · split
        · exact ⟨rfl, rfl⟩
        · split <;> exact ⟨rfl, rfl⟩
  | decode =>
    unfold Block.advanceTile
    split <;> (try split) <;> exact ⟨rfl, rfl⟩

/-- What an input other than the sequencer's turn makes of the block. -/
def Block.after (b : Block) : Input → Block
  | .host we idx v =>
    if we = true ∧ idx = 0 then
      if v.extractLsb' 0 8 = 0x01#8 ∧ b.state ≠ .busy then b.startRun else b.reject
    else if we = true ∧ idx = 7 then { b with tsel := v.extractLsb' 0 20 }
    else b
  | .reset => Block.reset
  | .sequencer => b
  | .sourcePort _ _ => b
  | .unpackPort _ => b
  | .attach _ => b

/-- What an input makes of the source. -/
def Source.after (src : Source) : Input → Source
  | .attach new => new
  | .host _ _ _ => src
  | .reset => src
  | .sequencer => src
  | .sourcePort _ _ => src
  | .unpackPort _ => src

/-- What a step that answers makes of the block, the source and the inputs: a phase step, or the effect of
the input it takes up; a source is never replaced while BUSY. -/
def State.Effect (t : State) : Prop :=
  t.inputs = s.inputs.tail ∧
    ((s.SequencerNext ∧ Block.PhaseStep s.source s.block t.block ∧ t.source = s.source) ∨
      ∃ x, s.inputs.head? = some x ∧ x ≠ .sequencer ∧ t.block = s.block.after x ∧
        t.source = s.source.after x ∧ (s.block.state = .busy → t.source = s.source))

/-- Every step that answers is one of the two. -/
theorem step_next (t : State) (h : step s = .next t) : s.Effect t := by
  revert t
  apply step_cases s (fun o => ∀ t, o = .next t → s.Effect t)
  · intro hs t h
    obtain ⟨hb, hsrc, hi, -⟩ := phaseStep_next _ t h
    exact ⟨hi, .inl ⟨hs, hb, hsrc⟩⟩
  · intro v hv hc t h
    unfold execStart at h
    split at h
    · rename_i hbusy
      cases h
      refine ⟨rfl, .inr ⟨_, hv, nofun, ?_, rfl, fun _ => rfl⟩⟩
      have hbusy' : s.block.state = .busy := hbusy
      simp [Block.after, hbusy']
    · rename_i hbusy
      cases h
      refine ⟨rfl, .inr ⟨_, hv, nofun, ?_, rfl, fun _ => rfl⟩⟩
      have hbusy' : s.block.state ≠ .busy := hbusy
      simp [Block.after, hc, hbusy']
  · intro v hv hc t h
    cases h
    exact ⟨rfl, .inr ⟨_, hv, nofun, by simp [Block.after, hc], rfl, fun _ => rfl⟩⟩
  · intro v hv t h
    cases h
    refine ⟨rfl, .inr ⟨_, hv, nofun, ?_, rfl, fun _ => rfl⟩⟩
    have e : (v.extractLsb' 17 3 ++ v.extractLsb' 0 17 : BitVec 20) = v.extractLsb' 0 20 :=
      extract_append v 0 17 3
    simp [Block.after, e]
  · intro idx v hv h0 h7 t h
    cases h
    refine ⟨rfl, .inr ⟨_, hv, nofun, ?_, rfl, fun _ => rfl⟩⟩
    have h0' : ¬ idx = 0#5 := h0
    have h7' : ¬ idx = 7#5 := h7
    simp [Block.after, h0', h7']
  · intro v hv t h
    unfold execRdrow at h
    split at h <;> cases h
    exact ⟨rfl, .inr ⟨_, hv, nofun, by simp [Block.after], rfl, fun _ => rfl⟩⟩
  · intro idx v hv _ t h
    unfold execRdreg at h
    split at h <;> cases h
    exact ⟨rfl, .inr ⟨_, hv, nofun, by simp [Block.after], rfl, fun _ => rfl⟩⟩
  · intro a hv _ t h
    split at h <;> cases h
    obtain ⟨hb, hsrc, hi, -⟩ := s.consumed.srcRead16_frame none a
    exact ⟨hi, .inr ⟨_, hv, nofun, hb, hsrc, fun _ => hsrc⟩⟩
  · intro a hv _ t h
    split at h <;> cases h
    obtain ⟨hb, hsrc, hi, -⟩ := s.consumed.srcSeek_frame none a
    exact ⟨hi, .inr ⟨_, hv, nofun, hb, hsrc, fun _ => hsrc⟩⟩
  · intro b hv t h
    cases h
    exact ⟨rfl, .inr ⟨_, hv, nofun, rfl, rfl, fun _ => rfl⟩⟩
  · intro hv t h
    cases h
    exact ⟨rfl, .inr ⟨_, hv, nofun, rfl, rfl, fun _ => rfl⟩⟩
  · intro src hv t h
    unfold execAttach at h
    split at h <;> cases h
    rename_i hn
    exact ⟨rfl, .inr ⟨_, hv, nofun, rfl, rfl, fun e => absurd e hn⟩⟩

/-- What the phase step makes of the block, as one function of the source and the block (R104, R247): the
block waits in an idle phase and while the source stalls its access, and else takes its phase's rule. -/
def Source.nextBlock (src : Source) (b : Block) : Block :=
  match b.phase with
  | .idle => b
  | .hdr =>
    if src.stall = some .hdr then b
    else
      match src.fail.code? .hdr with
      | some c => b.raise .sourceFailure .headerRead 0 c
      | none =>
        if b.pos.toNat + 16 ≤ src.image.len then
          { b with hdr := src.image.bytes16 b.pos.toNat, pos := b.pos + 16, phase := .magic }
        else b.raise .truncatedInput .headerRead 0 0
  | .magic => if magicMatches b.hdr then { b with phase := .counts } else b.raise .invalidFormat .none 0 0
  | .counts => { b with pbc := b.hdr[4], gbc := b.hdr[5], phase := .gfxchk }
  | .gfxchk => if b.gbc = 0 then b.raise .unsupportedGraphicsStorage .none 0 0 else { b with phase := .seek }
  | .seek =>
    if src.stall = some .seek then b
    else
      match src.fail.code? .seek with
      | some c => b.raise .sourceFailure .seek 0 c
      | none => { b with pos := gfxBase b.pbc, phase := .tread }
  | .tread =>
    if src.stall = some (.tile b.tidx.toNat) then b
    else
      match src.fail.code? (.tile b.tidx.toNat) with
      | some c => b.raise .sourceFailure .tileRead b.tidx c
      | none =>
        if src.image.len < b.pos.toNat then b.raise .truncatedInput .tileRead b.tidx 0
        else if b.pos.toNat + 16 ≤ src.image.len then
          { b with tbuf := src.image.bytes16 b.pos.toNat, pos := b.pos + 16, phase := .tdec }
        else if src.image.len = b.pos.toNat then b.complete b.tidx
        else b.raise .truncatedInput .tileRead b.tidx 0
  | .tdec => Block.advanceTile { b with ts := b.ts.write b.tidx.toNat (entry b.tbuf) }
  | .done => b
  | .error => b

/-- The phase step answers, with that block, wherever the entry TILE_DECODE writes exists. -/
theorem phaseStep_answers (h : s.block.phase = .tdec → s.block.tidx.toNat < Config.tileStoreSize) :
    ∃ t, phaseStep s = .next t ∧ t.block = s.source.nextBlock s.block ∧ t.source = s.source ∧
      t.inputs = s.inputs := by
  have key : ∃ t, phaseStep s = .next t ∧ t.block = s.source.nextBlock s.block := by
    unfold phaseStep Source.nextBlock
    cases hp : s.block.phase with
    | idle => exact ⟨_, rfl, rfl⟩
    | hdr =>
      by_cases hs : s.source.stall = some .hdr
      · rw [if_pos hs]
        exact ⟨_, execHdrRead_stalled s hs, rfl⟩
      · rw [if_neg hs]
        exact ⟨_, execHdrRead_answered s hs, Block.takeHeader_readResponse _ _ _ _ _⟩
    | magic =>
      by_cases hm : magicMatches s.block.hdr = true
      · exact ⟨s.quiet.withBlock { s.block with phase := .counts }, by simp [execMagicCheck, hm], by simp [hm]⟩
      · exact ⟨s.quiet.withBlock (s.block.raise .invalidFormat .none 0 0), by simp [execMagicCheck, hm],
          by simp [hm]⟩
    | counts => exact ⟨_, rfl, rfl⟩
    | gfxchk =>
      by_cases hg : s.block.gbc = 0
      · simp only [execGfxCheck, if_pos hg]
        exact ⟨_, rfl, rfl⟩
      · simp only [execGfxCheck, if_neg hg]
        exact ⟨_, rfl, rfl⟩
    | seek =>
      by_cases hs : s.source.stall = some .seek
      · rw [if_pos hs]
        exact ⟨_, execBankSeek_stalled s hs, rfl⟩
      · rw [if_neg hs]
        exact ⟨_, execBankSeek_answered s hs, Block.takeSeek_seekResponse _ _ _ _⟩
    | tread =>
      by_cases hs : s.source.stall = some (.tile s.block.tidx.toNat)
      · simp only [if_pos hs]
        exact ⟨_, execTileRead_stalled s hs, rfl⟩
      · simp only [if_neg hs]
        exact ⟨_, execTileRead_answered s hs, Block.takeTile_readResponse _ _ _ _ _⟩
    | tdec => exact ⟨_, execTileDecode_exists s (h hp), rfl⟩
    | done => exact ⟨_, rfl, rfl⟩
    | error => exact ⟨_, rfl, rfl⟩
  obtain ⟨t, ht, hb⟩ := key
  obtain ⟨-, hs, hi, -⟩ := phaseStep_next s t ht
  exact ⟨t, ht, hb, hs, hi⟩

/-- The busy phases are those before the tile loop and those of it (R22). -/
theorem Block.Legal.busy_iff {b : Block} (h : b.Legal) :
    b.state = .busy ↔ b.phase.inHeader = true ∨ b.phase.inLoop = true := by
  rw [h.state_of_phase]
  cases b.phase <;> simp [Phase.runState, Phase.inHeader, Phase.inLoop]

/-- A block that is not busy presents no request (R231). -/
theorem Block.Legal.request_none {b : Block} (h : b.Legal) (hb : b.state ≠ .busy) : b.request? = none := by
  have hn : ¬(b.phase.inHeader = true ∨ b.phase.inLoop = true) := fun e => hb (h.busy_iff.2 e)
  generalize hp : b.phase = p at hn
  cases p <;> simp [Phase.inHeader, Phase.inLoop] at hn <;> simp [Block.request?, hp]

end Sys2Proof.Machine
end

