-- ==== Sys2Proof/Laws/Unpack.lean ====
section
/-!
SUPPORT. The bits of a pixel, the pixels of a row word and the row words of an entry
(spec/44_tile_unpack.md R181, R182; spec/30_encoding.md R95, R96).
-/

namespace Sys2Proof.Machine

/-- The low bit of a colour index is plane A's (R181). -/
theorem pixel_low (b : Bytes16) (i c : Fin 8) :
    (pixel b i c).getLsbD 0 = (b[i.val]).getLsbD (7 - c.val) := by
  rw [pixel, BitVec.getLsbD_append]
  simp

/-- The high bit of a colour index is plane B's (R181). -/
theorem pixel_high (b : Bytes16) (i c : Fin 8) :
    (pixel b i c).getLsbD 1 = (b[i.val + 8]).getLsbD (7 - c.val) := by
  rw [pixel, BitVec.getLsbD_append]
  simp

/-- `W[15 − 2c : 14 − 2c]` is the pixel of column `c` (R95). -/
theorem packRow_pixel (r : Vector (BitVec 2) 8) (c : Fin 8) :
    (packRow r).extractLsb' (14 - 2 * c.val) 2 = r[c.val] := by
  unfold packRow
  have key : ∀ x : BitVec 2, x.extractLsb' 0 2 = x := extract_all
  fin_cases c
  · iterate 7 rw [extract_high _ _ _ _ (by decide)]
    exact key _
  · iterate 6 rw [extract_high _ _ _ _ (by decide)]
    rw [extract_low _ _ _ _ (by decide)]; exact key _
  · iterate 5 rw [extract_high _ _ _ _ (by decide)]
    rw [extract_low _ _ _ _ (by decide)]; exact key _
  · iterate 4 rw [extract_high _ _ _ _ (by decide)]
    rw [extract_low _ _ _ _ (by decide)]; exact key _
  · iterate 3 rw [extract_high _ _ _ _ (by decide)]
    rw [extract_low _ _ _ _ (by decide)]; exact key _
  · iterate 2 rw [extract_high _ _ _ _ (by decide)]
    rw [extract_low _ _ _ _ (by decide)]; exact key _
  · rw [extract_high _ _ _ _ (by decide)]
    rw [extract_low _ _ _ _ (by decide)]; exact key _
  · rw [extract_low _ _ _ _ (by decide)]; exact key _

/-- Bits `[16i+15:16i]` of an entry are the row word of row `i` (R96). -/
theorem packGrid_row (g : Grid) (i : Fin 8) :
    (packGrid g).extractLsb' (16 * i.val) 16 = packRow g[i.val] := by
  unfold packGrid
  have key : ∀ x : BitVec 16, x.extractLsb' 0 16 = x := extract_all
  fin_cases i
  · rw [extract_low _ _ _ _ (by decide)]; exact key _
  · rw [extract_high _ _ _ _ (by decide)]
    rw [extract_low _ _ _ _ (by decide)]; exact key _
  · iterate 2 rw [extract_high _ _ _ _ (by decide)]
    rw [extract_low _ _ _ _ (by decide)]; exact key _
  · iterate 3 rw [extract_high _ _ _ _ (by decide)]
    rw [extract_low _ _ _ _ (by decide)]; exact key _
  · iterate 4 rw [extract_high _ _ _ _ (by decide)]
    rw [extract_low _ _ _ _ (by decide)]; exact key _
  · iterate 5 rw [extract_high _ _ _ _ (by decide)]
    rw [extract_low _ _ _ _ (by decide)]; exact key _
  · iterate 6 rw [extract_high _ _ _ _ (by decide)]
    rw [extract_low _ _ _ _ (by decide)]; exact key _
  · iterate 7 rw [extract_high _ _ _ _ (by decide)]
    exact key _

/-- A pixel of the unpacked tile (R180). -/
theorem unpackTile_pixel (b : Bytes16) (i c : Fin 8) : ((unpackTile b)[i.val])[c.val] = pixel b i c := by
  simp [unpackTile]

/-- A bit of a plane byte is a bit of the pixel in column `7 − j` (R188). -/
theorem planeByte_bit (r : Vector (BitVec 2) 8) (k : Nat) (j : Fin 8) :
    (planeByte r k).getLsbD j.val = (r[7 - j.val]).getLsbD k := by
  simp [planeByte]

/-- A byte lane of the 128-bit bus (R101). -/
theorem bytesOfBus_lane (b : BitVec 128) (m : Fin 16) :
    (bytesOfBus b)[m.val] = b.extractLsb' (8 * m.val) 8 := by
  simp [bytesOfBus]

end Sys2Proof.Machine
end

