-- ==== Sys2Proof/Tests/Slice0.lean ====
section
/-!
SUPPORT. Tests of the model: the well-formedness smoke test, words written out bit by bit from
spec/opcode_table.json, the spec's own vectors (spec/95_test_vectors.md and the examples of the rules), one
step each, and for every obligation with hypotheses a named witness that meets them.
-/

namespace Sys2Proof.Tests

open Sys2Proof Sys2Proof.Machine

/-! ### Small states -/

/-- The cells of a byte sequence that starts at address `a`. -/
def cellsFrom : Nat → List Byte → Memory 8
  | _, [] => []
  | a, b :: rest => if b = 0 then cellsFrom (a + 1) rest else (a, b) :: cellsFrom (a + 1) rest

/-- A source that holds these bytes, followed by zeros up to `len`, and neither fails nor stalls. -/
def sourceOf (len : Nat) (bytes : List Byte) : Source :=
  { Source.empty with image := { len := len, cells := cellsFrom 0 bytes } }

/-- `H(pc, cc)` of spec/95_test_vectors.md. -/
def header (pc cc : Byte) : List Byte := [0x4E, 0x45, 0x53, 0x1A, pc, cc, 0, 0, 0, 0, 0, 0, 0, 0, 0, 0]

/-- `KNOWN` of spec/95_test_vectors.md. -/
def known : Bytes16 := #v[0xF0, 0, 0, 0, 0, 0, 0, 0, 0xCC, 0, 0, 0, 0, 0, 0, 0]

/-- `H(0,1)` followed by `len − 16` bytes, the first of them `KNOWN`. -/
def knownSource (len : Nat) : Source := sourceOf len (header 0 1 ++ known.toList)

/-- The header `H(pc, cc)` as HDR holds it. -/
def headerBytes (pc cc : Byte) : Bytes16 := #v[0x4E, 0x45, 0x53, 0x1A, pc, cc, 0, 0, 0, 0, 0, 0, 0, 0, 0, 0]

/-- A machine with this block and source, and these inputs. -/
def machine (b : Block) (src : Source) (inputs : List Input) : State :=
  { State.reset with block := b, source := src, inputs := inputs }

/-- A run just started (P_HDR). -/
def hdrBlock : Block := Block.reset.startRun

/-- A run over `H(0,1)` that has read its header, in phase `p`. -/
def headerBlock (p : Phase) : Block := { hdrBlock with hdr := headerBytes 0 1, pos := 16, phase := p }

/-- A run over `H(0,1)` about to read tile 0 (P_TREAD). -/
def treadBlock : Block := { headerBlock .tread with gbc := 1 }

/-- The same run with tile 0 read (P_TDEC). -/
def tdecBlock : Block := { treadBlock with tbuf := known, pos := 32, phase := .tdec }

/-- The same run with tile 0 stored, about to read tile 1 (P_TREAD). -/
def treadBlock1 : Block :=
  { tdecBlock with ts := [(0, 0xF5A0)], tidx := 1, tib := 1, phase := .tread }

/-- The state after V-D1. -/
def doneBlock : Block := { treadBlock1 with tilecount := 1, state := .done, phase := .done }

/-- The state after V-D2. -/
def errorBlock : Block :=
  { treadBlock1 with ecode := .truncatedInput, ephase := .tileRead, etile := 1, state := .error, phase := .error }

/-- What a next state shows; none when the step stops. -/
def seen {α : Type} (o : Host.Outcome State Fault Refusal) (f : State → α) : Option α :=
  match o with
  | .next t => some (f t)
  | .fault _ => none
  | .refused _ => none

/-- The value register `n` reads in a next state. -/
def reads (o : Host.Outcome State Fault Refusal) (n : BitVec 5) : Option Word :=
  (seen o fun t => t.block.readReg n).join

/-! ### Well-formedness -/

/-- RDREG of index 8 is refused: that word is RDROW's (note of the row RDREG). -/
theorem test_rdreg_8_ill_formed : (Instr.rdreg 8).wellFormed = false := by decide

/-! ### Decoding: words from the "encoding" column of spec/opcode_table.json -/

theorem test_decode_start :
    decode (.hostW 0b10000010100101101001011010010100000001#38) = .ok (.start 0b101001011010010110100101) := by
  decide

theorem test_decode_rdreg : decode (.hostR 0b010011#6) = .ok (.rdreg 19) := by decide

theorem test_decode_wrtsel :
    decode (.hostW 0b10011111111111111101110000000000000101#38) = .ok (.wrtsel 0b111111111111 0b011 0b10000000000000101) := by
  decide

theorem test_decode_rdrow : decode (.hostR 0b001000#6) = .ok .rdrow := by decide

theorem test_decode_phases :
    decode (.phase 0b0001#4) = .ok .hdrRead ∧ decode (.phase 0b0010#4) = .ok .magicCheck ∧
      decode (.phase 0b0011#4) = .ok .countLatch ∧ decode (.phase 0b0100#4) = .ok .gfxCheck ∧
      decode (.phase 0b0101#4) = .ok .bankSeek ∧ decode (.phase 0b0110#4) = .ok .tileRead ∧
      decode (.phase 0b0111#4) = .ok .tileDecode := by
  decide

theorem test_decode_srcRead : decode (.srcReq 0b001111111100000000010000#24) = .ok (.srcRead 0x3FC010) := by
  decide

theorem test_decode_srcSeek : decode (.srcReq 0b100000001000000000010000#24) = .ok (.srcSeek 0x008010) := by
  decide

theorem test_decode_unpack :
    decode (.comb 0x00000000000000CC00000000000000F0#128) = .ok (.unpack 0xCC00000000000000F0) := by
  decide

/-- R104, R105: what selects no operation, by name. -/
theorem test_decode_rejects :
    decode (.hostW 0x2000000000#38) = .error (.reservedCommand 0) ∧
      decode (.hostW 0x2500000010#38) = .error (.ignoredWrite 5) ∧
      decode (.hostW 0x0000000001#38) = .error .wrongDirection ∧
      decode (.hostR 0b100001#6) = .error .wrongDirection ∧
      decode (.phase 0#4) = .error (.idlePhase 0) ∧ decode (.phase 9#4) = .error (.idlePhase 9) ∧
      decode (.phase 10#4) = .error (.unreachablePhase 10) := by
  decide

/-- The step runs an operation placed where it is taken up, as the first after reset. -/
theorem test_placed_start_runs : reads (step (State.reset.withFetchWord 40 0x2000000001)) 1 = some 0x11 := by
  decide

theorem test_placed_phase_runs : reads (step (State.reset.withFetchWord 8 0x7)) 1 = some 0x61 := by decide

/-! ### Constants -/

/-- R6: the constants are consistent, `8192 / 16 = 512`. -/
theorem test_constants : Config.gfxBankSize / Config.tileSize = Config.tilesPerBank ∧
    255 * Config.tilesPerBank = Config.tileStoreSize := by
  decide

/-! ### Host interface: spec/95_test_vectors.md section 7 -/

/-- V-I5. -/
theorem test_start_ignores_upper_bits :
    reads (step (machine Block.reset Source.empty [.host true 0 0xFFFFFF01])) 1 = some 0x11 := by
  decide

/-- V-I9. -/
theorem test_start_while_busy : reads (exec (.start 0) (machine treadBlock (knownSource 32) [])) 1 = some 0x65 := by
  decide

/-- V-I6. -/
theorem test_reserved_command_zero :
    reads (step (machine Block.reset Source.empty [.host true 0 0])) 1 = some 0x04 := by
  decide

/-- V-I12, its first access. -/
theorem test_write_of_tilecount_ignored :
    seen (step (machine doneBlock (knownSource 32) [.host true 5 0x10])) State.block = some doneBlock := by
  decide

/-- V-I3, `R 17`. -/
theorem test_read_palette :
    seen (exec (.rdreg 17) State.reset) (fun t => t.ports.hRdata) = some (some 0xFF0000FF) := by
  decide

/-- V-H3, `ERRHDR0`. -/
theorem test_read_errhdr :
    seen (exec (.rdreg 12) (machine { errorBlock with
        ecode := .invalidFormat
        hdr := #v[0x4E, 0x45, 0x53, 0x1B, 2, 1, 0, 0, 0, 0, 0, 0, 0, 0, 0, 0] } Source.empty []))
      (fun t => t.ports.hRdata) = some (some 0x1B53454E) := by
  decide

/-- V-I13. -/
theorem test_wrtsel_all_ones :
    reads (step (machine Block.reset Source.empty [.host true 7 0xFFFFFFFF])) 7 = some 0x000FFFFF := by
  decide

/-- R126, its example: tile 5, row 3. -/
theorem test_wrtsel_example :
    seen (exec (.wrtsel 0 3 5) State.reset) (fun t => t.block.readReg 7) = some (some 0x00060005) := by
  decide

/-- V-I14. -/
theorem test_rdrow_known :
    seen (exec .rdrow (machine doneBlock (knownSource 32) [])) (fun t => t.ports.hRdata) = some (some 0xF5A0) := by
  decide

/-- V-I17. -/
theorem test_rdrow_after_error :
    seen (exec .rdrow (machine errorBlock (knownSource 37) [])) (fun t => t.ports.hRdata) = some (some 0) := by
  decide

/-- V-I19. -/
theorem test_reset_during_run :
    (reads (step (machine treadBlock1 (knownSource 48) [.reset])) 1,
      reads (step (machine treadBlock1 (knownSource 48) [.reset])) 7) = (some 0, some 0) := by
  decide

/-! ### Header validator: section 4 -/

/-- V-H1b: fifteen bytes. -/
theorem test_hdrRead_short : reads (exec .hdrRead (machine hdrBlock (knownSource 15) [])) 2 = some 0x11 := by decide

/-- V-F5: a failure with code 0 on a source of three bytes is still a failure. -/
theorem test_hdrRead_failure :
    reads (exec .hdrRead (machine hdrBlock
      { sourceOf 3 [0x61, 0x62, 0x63] with fail := { hdr := some 0, seek := none, tiles := [] } } [])) 2 =
        some 0x14 := by
  decide

/-- V-H4: lower case fails. -/
theorem test_magicCheck_lower_case :
    reads (exec .magicCheck (machine { headerBlock .magic with
        hdr := #v[0x6E, 0x65, 0x73, 0x1A, 0, 1, 0, 0, 0, 0, 0, 0, 0, 0, 0, 0] } Source.empty [])) 2 = some 0x02 := by
  decide

/-- V-H2, step 2: the right magic passes to P_COUNTS. -/
theorem test_magicCheck_passes : reads (exec .magicCheck (machine (headerBlock .magic) (knownSource 16) [])) 1 =
    some 0x31 := by
  decide

/-- R142, its example. -/
theorem test_countLatch :
    reads (exec .countLatch (machine { headerBlock .counts with hdr := headerBytes 2 1 } Source.empty [])) 6 =
      some 0x0102 := by
  decide

/-- V-H7. -/
theorem test_gfxCheck_no_banks :
    reads (exec .gfxCheck (machine { headerBlock .gfxchk with pbc := 1, gbc := 0 } Source.empty [])) 2 =
      some 0x03 := by
  decide

/-! ### Address calculator: section 3 -/

/-- V-A1 to V-A5. -/
theorem test_gfxBase : [0, 1, 2, 128, 255].map gfxBase =
    ([0x000010, 0x004010, 0x008010, 0x200010, 0x3FC010] : List SrcAddr) := by
  decide

/-- R151, its example. -/
theorem test_bankSeek :
    seen (exec .bankSeek (machine { headerBlock .seek with pbc := 2, gbc := 1 } Source.empty []))
      (fun t => (t.block.pos, t.block.readReg 1)) = some (32784, some 0x61) := by
  decide

/-- V-F2. -/
theorem test_bankSeek_failure :
    seen (exec .bankSeek (machine { headerBlock .seek with gbc := 1 }
        { knownSource 32 with fail := { hdr := none, seek := some 0x07, tiles := [] } } []))
      (fun t => (t.block.readReg 2, t.block.readReg 4)) = some (some 0x24, some 0x07) := by
  decide

/-! ### Tile fetch: sections 3 and 5 -/

/-- V-A9: one byte short of the region. -/
theorem test_tileRead_past :
    reads (exec .tileRead (machine { treadBlock with pbc := 1, pos := 16400 } (sourceOf 16399 (header 1 1)) [])) 2 =
      some 0x31 := by
  decide

/-- V-A10: the source ends exactly where the region would start. -/
theorem test_tileRead_clean_end :
    reads (exec .tileRead (machine { treadBlock with pbc := 1, pos := 16400 } (sourceOf 16400 (header 1 1)) [])) 1 =
      some 0x82 := by
  decide

/-! ### Unpacker: section 2 -/

/-- R184, its example. -/
theorem test_tileDecode :
    seen (exec .tileDecode (machine tdecBlock (knownSource 32) []))
      (fun t => (t.block.ts.read 0, t.block.tidx, t.block.tib, t.block.phase)) =
        some (0x0000000000000000000000000000F5A0, 1, 1, .tread) := by
  decide

/-- V-D6: the last tile of the last bank ends the run. -/
theorem test_tileDecode_last :
    seen (exec .tileDecode (machine { tdecBlock with tidx := 511, tib := 511, pos := 8208 } (knownSource 8208) []))
      (fun t => (t.block.readReg 1, t.block.readReg 5, t.block.bank, t.block.tib)) =
        some (some 0x82, some 512, 1, 0) := by
  decide

/-- V-U9, GLYPH. -/
theorem test_unpack_glyph :
    seen (exec (.unpack 0x66667E66663C18000066667E66663C18#128) State.reset) (fun t => t.ports.utOut) =
      some 0x28283C3C3EBC3D7C3C3C1EB407D00140 := by
  decide

/-- V-U11, MIXED. -/
theorem test_entry_mixed :
    entry #v[0x0F, 0x33, 0x55, 0x00, 0xFF, 0xA5, 0x3C, 0x81, 0x00, 0x0F, 0x33, 0x55, 0xFF, 0x5A, 0xC3, 0x7E] =
      0x6AA9A55A6699FFFF22221B1B05AF0055 := by
  decide

/-- S3: the grid of KNOWN encodes to KNOWN. -/
theorem test_encode_known :
    encodeTile #v[#v[3, 3, 1, 1, 2, 2, 0, 0], Vector.replicate 8 0, Vector.replicate 8 0, Vector.replicate 8 0,
      Vector.replicate 8 0, Vector.replicate 8 0, Vector.replicate 8 0, Vector.replicate 8 0] = known := by
  decide

/-! ### Source port: section 6 -/

/-- What a read response says of the end of the source. -/
def endOf : Option (SrcRequest × SrcAnswer) → Option (Bool × Bool × BitVec 5)
  | some (_, .read r) => some (r.fail, r.past, r.count)
  | some (_, .seek _) => none
  | none => none

/-- Section 6, `SRC_LEN = 37`: the read at 32 delivers five bytes. -/
theorem test_srcRead_five_bytes :
    seen (exec (.srcRead 32) (machine Block.reset (knownSource 37) [])) (fun t => endOf t.ports.srcDone) =
      some (some (false, false, 5)) := by
  decide

/-- Section 6, `SRC_LEN = 37`: the read at 38 is past the end. -/
theorem test_srcRead_past :
    seen (exec (.srcRead 38) (machine Block.reset (knownSource 37) [])) (fun t => endOf t.ports.srcDone) =
      some (some (false, true, 0)) := by
  decide

/-- V-A8, the seek of it: a seek beyond the extent succeeds. -/
theorem test_srcSeek_beyond :
    seen (exec (.srcSeek 16400) (machine Block.reset (sourceOf 116 (header 1 1)) [])) (fun t => t.ports.srcDone) =
      some (some (⟨.seek, 16400⟩, .seek ⟨false, 0⟩)) := by
  decide

/-- V-F7: a source that stalls the seek leaves the run in P_SEEK, the request held. -/
theorem test_stalled_seek :
    seen (step (machine { headerBlock .seek with gbc := 1 } { knownSource 32 with stall := some .seek } []))
      (fun t => (t.block.readReg 1, t.ports.srcPending)) = some (some 0x51, some ⟨.seek, 16⟩) := by
  decide

/-- R103: a host word of the wrong direction, or a PHASE code that is never held, is no word of the table and
places nothing; the same index and data in the right direction place the access. -/
theorem test_place_wrong_direction :
    State.reset.withFetchWord 6 0x20 = State.reset ∧ State.reset.withFetchWord 40 0x0000000001 = State.reset ∧
      State.reset.withFetchWord 4 0xA = State.reset ∧
      (State.reset.withFetchWord 6 0x01).inputs = [.host false 1 0] ∧
      (State.reset.withFetchWord 40 0x2000000001).inputs = [.host true 0 1] := by
  decide

/-! ### Witnesses: states and operands that meet the hypotheses of each obligation -/

/-- The blocks of the samples above meet R41 and the ranges. -/
theorem legal_hdrBlock : hdrBlock.Legal := by constructor <;> decide

theorem legal_seek : ({ headerBlock .seek with gbc := 1 } : Block).Legal := by constructor <;> decide

theorem legal_magic : (headerBlock .magic).Legal := by constructor <;> decide

theorem legal_treadBlock : treadBlock.Legal := by constructor <;> decide

theorem legal_tdecBlock : tdecBlock.Legal := by constructor <;> decide

theorem legal_treadBlock1 : treadBlock1.Legal := by constructor <;> decide

theorem legal_doneBlock : doneBlock.Legal := by constructor <;> decide

theorem legal_errorBlock : errorBlock.Legal := by constructor <;> decide

/-- The unpack port of the sample machines. -/
theorem inv_reset_unpack : State.reset.ports.utOut = entry (bytesOfBus State.reset.ports.utIn) := by decide

/-- The invariant of a sample machine, from what is not plain computation on it. -/
theorem inv_of (b : Block) (src : Source) (inputs : List Input) (hl : b.Legal)
    (hd : (machine b src []).RunData) (hs : src.wf = true) (hi : inputs.all Input.wf = true) :
    (machine b src inputs).Inv :=
  ⟨hl, ⟨hd.header, hd.magic, hd.counts, hd.within, hd.tile, hd.stored⟩, ⟨inv_reset_unpack, nofun⟩, hs, hi⟩

theorem inv_reset : State.reset.Inv :=
  inv_of Block.reset Source.empty [] (by constructor <;> decide) (by constructor <;> decide) rfl rfl

/-- Nothing has run; START is next. -/
theorem inv_start : (machine Block.reset (knownSource 32) [.host true 0 1]).Inv :=
  inv_of _ _ _ (by constructor <;> decide) (by constructor <;> decide) (by decide) rfl

theorem inv_hdr (inputs : List Input) (hi : inputs.all Input.wf = true) :
    (machine hdrBlock (knownSource 32) inputs).Inv :=
  inv_of _ _ _ legal_hdrBlock (by constructor <;> decide) (by decide) hi

theorem inv_seek : (machine { headerBlock .seek with gbc := 1 } (knownSource 32) []).Inv :=
  inv_of _ _ _ legal_seek (by constructor <;> decide) (by decide) rfl

/-- About to read tile 1 of V-D1: the clean end. -/
theorem inv_tread (inputs : List Input) (hi : inputs.all Input.wf = true) :
    (machine treadBlock1 (knownSource 32) inputs).Inv :=
  inv_of _ _ _ legal_treadBlock1 (by constructor <;> decide) (by decide) hi

theorem inv_done (inputs : List Input) (hi : inputs.all Input.wf = true) :
    (machine doneBlock (knownSource 32) inputs).Inv :=
  inv_of _ _ _ legal_doneBlock (by constructor <;> decide) (by decide) hi

theorem inv_error (inputs : List Input) (hi : inputs.all Input.wf = true) :
    (machine errorBlock (knownSource 37) inputs).Inv :=
  inv_of _ _ _ legal_errorBlock (by constructor <;> decide) (by decide) hi

/-- `H(0,1)` and 8192 zero bytes, the last tile of the last bank read (V-D6). -/
def lastBlock : Block :=
  { treadBlock with pos := 8208, tib := 511, tidx := 511, phase := .tdec }

theorem legal_lastBlock : lastBlock.Legal := by constructor <;> decide

theorem zero_beyond_header (a : Nat) (h : 16 ≤ a) : (sourceOf 8208 (header 0 1)).image.byte a = 0 := by
  have e : (sourceOf 8208 (header 0 1)).image.cells = [(0, 0x4E), (1, 0x45), (2, 0x53), (3, 0x1A), (5, 1)] := by
    decide
  simp only [Image.byte, e, Memory.read, show ¬ 0 = a by omega, show ¬ 1 = a by omega, show ¬ 2 = a by omega,
    show ¬ 3 = a by omega, show ¬ 5 = a by omega, if_false]
  rfl

theorem zero_tile (a : Nat) (h : 16 ≤ a) :
    (sourceOf 8208 (header 0 1)).image.bytes16 a = Vector.replicate 16 0 := by
  apply Vector.ext
  intro k hk
  simpa [Image.bytes16] using zero_beyond_header (a + k) (by omega)

theorem inv_last : (machine lastBlock (sourceOf 8208 (header 0 1)) []).Inv := by
  have hz : entry (Vector.replicate 16 0) = 0 := by decide
  refine inv_of _ _ _ legal_lastBlock ⟨by decide, by decide, by decide, nofun, ?_, ?_⟩ (by decide) rfl
  · intro _
    exact ⟨by decide, (zero_tile (16 + 16 * 511) (by omega)).symm⟩
  · intro _ k _
    have e : regionBase lastBlock.pbc + 16 * k = 16 + 16 * k := rfl
    show Memory.read [] k = entry ((sourceOf 8208 (header 0 1)).image.bytes16 (regionBase lastBlock.pbc + 16 * k))
    rw [e, zero_tile (16 + 16 * k) (by omega), hz]
    rfl

/-- A step that answers. -/
theorem answers (s : State) (h : (seen (step s) fun _ => ()) = some ()) : ∃ t, step s = .next t := by
  cases e : step s with
  | next t => exact ⟨t, rfl⟩
  | fault r => simp [seen, e] at h
  | refused r => simp [seen, e] at h

/-- The same, with what the next state shows. -/
theorem answers_with {α : Type} (s : State) (f : State → α) (a : α) (h : seen (step s) f = some a) :
    ∃ t, step s = .next t ∧ f t = a := by
  cases e : step s with
  | next t => exact ⟨t, rfl, by simpa [seen, e] using h⟩
  | fault r => simp [seen, e] at h
  | refused r => simp [seen, e] at h

theorem witness_StartBeginsARunUnlessBusy :
    State.reset.block.state ≠ .busy ∧ doneBlock.state ≠ .busy ∧ errorBlock.state ≠ .busy := by
  decide

theorem witness_StartWhileBusyOnlySetsRej :
    (machine treadBlock1 (knownSource 32) []).block.state = .busy ∧
    (∃ t, step (machine { doneBlock with rej := true } (knownSource 32) [.host true 0 1]) = .next t ∧
      t.block.rej = false) ∧
    ∃ t, step (machine { treadBlock1 with rej := true } (knownSource 32) [.reset]) = .next t ∧ t.block.rej = false :=
  ⟨rfl, answers_with _ (fun t => t.block.rej) _ (by decide), answers_with _ (fun t => t.block.rej) _ (by decide)⟩

theorem witness_ReservedCommandOnlySetsRej :
    (machine treadBlock1 (knownSource 32) [.host true 0 0xFFFFFF00]).inputs = .host true 0 0xFFFFFF00 :: [] ∧
      (0xFFFFFF00 : Word).extractLsb' 0 8 ≠ 0x01#8 ∧ (0xFFFFFF01 : Word).extractLsb' 0 8 = 0x01#8 := by
  decide

theorem witness_OtherWritesChangeNothing :
    (machine doneBlock (knownSource 32) [.host true 31 1]).inputs = .host true 31 1 :: [] ∧
      (31 : BitVec 5) ≠ 0 ∧ (31 : BitVec 5) ≠ 7 := by
  decide

theorem witness_RejChangesOnlyByCommandOrReset :
    (∃ t, step (machine doneBlock (knownSource 32) [.host true 0 1]) = .next t) ∧
    (∃ t, step (machine treadBlock1 (knownSource 32) [.host true 0 1]) = .next t) ∧
    (∃ t, step (machine treadBlock1 (knownSource 32) [.host true 8 1]) = .next t) ∧
    (∃ t, step (machine treadBlock1 (knownSource 32) [.reset]) = .next t) ∧
    ∃ t, step (machine treadBlock1 (knownSource 32) []) = .next t :=
  ⟨answers _ (by decide), answers _ (by decide), answers _ (by decide), answers _ (by decide),
    answers _ (by decide)⟩

theorem witness_TselChangesOnlyByWriteOrReset :
    (∃ t, step (machine doneBlock (knownSource 32) [.host true 7 0xFFFFFFFF]) = .next t) ∧
    (∃ t, step (machine doneBlock (knownSource 32) [.host true 6 0xFFFFFFFF]) = .next t) ∧
    (∃ t, step (machine doneBlock (knownSource 32) [.reset]) = .next t) ∧
    ∃ t, step (machine treadBlock1 (knownSource 32) [.sequencer]) = .next t :=
  ⟨answers _ (by decide), answers _ (by decide), answers _ (by decide), answers _ (by decide)⟩

theorem witness_WrtselSelectsTileAndRow :
    ∃ t, step (machine doneBlock (knownSource 32) [.host true 7 0xFFFFFFFF]) = .next t ∧
      (t.block.tsel != doneBlock.tsel) = true :=
  answers_with _ (fun t => t.block.tsel != doneBlock.tsel) _ (by decide)

theorem witness_RegisterReadAnswersAndChangesNothing :
    (machine doneBlock (knownSource 32) []).block.tilecount.toNat ≤ 130560 ∧
      (machine { doneBlock with tilecount := 130560 } Source.empty []).block.tilecount.toNat ≤ 130560 := by
  decide

theorem witness_StatusReadsStateRejAndPhase :
    (machine treadBlock1 (knownSource 32) []).Inv ∧ (machine errorBlock (knownSource 37) []).Inv :=
  ⟨inv_tread [] rfl, inv_error [] rfl⟩

theorem witness_ErrReadsKindAndPhase :
    (machine doneBlock (knownSource 32) []).Inv ∧ (machine errorBlock (knownSource 37) []).Inv :=
  ⟨inv_done [] rfl, inv_error [] rfl⟩

theorem witness_ReadFormatsOfTheRegisterMap :
    doneBlock.readReg 8 = some 0xF5A0 ∧
      ({ errorBlock with ecode := .invalidFormat } : Block).ecode = .invalidFormat := by
  decide

theorem witness_ReservedIndicesReadZeroAndIgnoreWrites :
    (0 : BitVec 5) ∈ ([0, 9, 10, 11, 20, 21, 22, 23, 24, 25, 26, 27, 28, 29, 30, 31] : List (BitVec 5)) ∧
    (31 : BitVec 5) ∈ ([0, 9, 10, 11, 20, 21, 22, 23, 24, 25, 26, 27, 28, 29, 30, 31] : List (BitVec 5)) ∧
      (seen (exec (.rdreg 1) State.reset) fun _ => ()) = some () ∧
      (seen (exec .rdrow State.reset) fun _ => ()) = some () ∧
      (machine doneBlock (knownSource 32) [.host true 9 1]).inputs = .host true 9 1 :: [] ∧
      (9 : BitVec 5) ≠ 0 ∧ (9 : BitVec 5) ≠ 7 := by
  decide

/-- A tile below TILECOUNT in DONE; TILE equal to TILECOUNT; and any TILE in ERROR. -/
theorem witness_RdrowAnswersTheSelectedRowOrZero :
    (doneBlock.state = .done ∧ doneBlock.selTile < doneBlock.tilecount ∧ doneBlock.tilecount.toNat ≤ 130560) ∧
    (¬(({ doneBlock with tsel := 1 } : Block).state = .done ∧
      ({ doneBlock with tsel := 1 } : Block).selTile < ({ doneBlock with tsel := 1 } : Block).tilecount)) ∧
    ¬(errorBlock.state = .done ∧ errorBlock.selTile < errorBlock.tilecount) := by
  decide

theorem witness_TilecountReadsZeroUnlessDone :
    (machine doneBlock (knownSource 32) []).Inv ∧ (machine treadBlock1 (knownSource 32) []).Inv ∧
      (machine treadBlock1 (knownSource 32) []).block.state ≠ .done :=
  ⟨inv_done [] rfl, inv_tread [] rfl, by decide⟩

theorem witness_ErrhdrReadsHeaderOnlyAfterInvalidFormat :
    (machine { errorBlock with ecode := .invalidFormat } Source.empty []).block.ecode = .invalidFormat ∧
      (machine errorBlock Source.empty []).block.ecode ≠ .invalidFormat := by
  decide

theorem witness_HdrReadTakesAFullHeaderOrRaises :
    ({ knownSource 16 with stall := some .hdr } : Source).stall = some .hdr ∧
    (machine hdrBlock (knownSource 16) []).block.pos = 0 ∧ (knownSource 16).stall ≠ some .hdr ∧
      (knownSource 16).fail.hdr = none ∧ 16 ≤ (knownSource 16).image.len ∧
      (knownSource 15).fail.hdr = none ∧ (knownSource 15).image.len < 16 ∧
      ({ knownSource 16 with fail := { hdr := some 0x5A, seek := none, tiles := [] } } : Source).fail.hdr =
        some 0x5A := by
  decide

theorem witness_MagicCheckPassesOnlyTheSignature :
    ((headerBlock .magic).hdr[0] = 0x4E ∧ (headerBlock .magic).hdr[1] = 0x45 ∧ (headerBlock .magic).hdr[2] = 0x53 ∧
      (headerBlock .magic).hdr[3] = 0x1A) ∧ ¬(Block.reset.hdr[3] = 0x1A) := by
  decide

theorem witness_MagicCheckPassesOnlyTheSignature_counts :
    (machine (headerBlock .magic) (knownSource 32) []).Inv ∧ (headerBlock .magic).phase = .magic :=
  ⟨inv_of _ _ _ legal_magic (by constructor <;> decide) (by decide) rfl, rfl⟩

theorem witness_GfxCheckRaisesOnlyOnZeroBanks :
    (headerBlock .gfxchk).gbc = 0 ∧ ({ headerBlock .gfxchk with gbc := 255 } : Block).gbc ≠ 0 := by
  decide

theorem witness_BankSeekMovesToTheRegionOrRaises :
    ({ knownSource 16 with stall := some .seek } : Source).stall = some .seek ∧
    (knownSource 32).stall ≠ some .seek ∧ (knownSource 32).fail.seek = none ∧
      ({ knownSource 32 with fail := { hdr := none, seek := some 7, tiles := [] } } : Source).fail.seek = some 7 := by
  decide

/-- Each outcome at its boundary: one past, exactly full, clean end, one byte, fifteen bytes; and a failure. -/
theorem witness_TileReadHasFiveOutcomes :
    ({ knownSource 16 with stall := some (.tile 0) } : Source).stall = some (.tile treadBlock.tidx.toNat) ∧
    (knownSource 32).stall ≠ some (.tile treadBlock.tidx.toNat) ∧
      (knownSource 32).fail.code? (.tile treadBlock.tidx.toNat) = none ∧
      ({ knownSource 32 with fail := { hdr := none, seek := none, tiles := [(0, 0xC3)] } } : Source).fail.code?
        (.tile treadBlock.tidx.toNat) = some 0xC3 ∧
      (knownSource 15).image.len < treadBlock.pos.toNat ∧
      treadBlock.pos.toNat + 16 ≤ (knownSource 32).image.len ∧
      (knownSource 16).image.len = treadBlock.pos.toNat ∧
      treadBlock.pos.toNat < (knownSource 17).image.len ∧
      (knownSource 17).image.len < treadBlock.pos.toNat + 16 ∧
      treadBlock.pos.toNat < (knownSource 31).image.len ∧
      (knownSource 31).image.len < treadBlock.pos.toNat + 16 := by
  decide

/-- A source that ends before the graphics region would start. -/
theorem witness_TileReadHasFiveOutcomes_past :
    (machine { treadBlock with pbc := 1, pos := 16400 } (sourceOf 16399 (header 1 1)) []).source.image.len <
      ({ treadBlock with pbc := 1, pos := 16400 } : Block).pos.toNat ∧
    (machine { treadBlock with pbc := 1, hdr := headerBytes 1 1, pos := 16400 } (sourceOf 16399 (header 1 1)) []).Inv :=
  ⟨by decide, inv_of _ _ _ (by constructor <;> decide) (by constructor <;> decide) (by decide) rfl⟩

/-- A run that ends by the clean end of its source, and one that ends after its last declared tile. -/
theorem witness_DoneCountIsTheDeclaredOrTheAvailable :
    ((machine treadBlock1 (knownSource 32) []).Inv ∧ (machine treadBlock1 (knownSource 32) []).block.state = .busy ∧
      ∃ t, step (machine treadBlock1 (knownSource 32) []) = .next t ∧ t.block.state = .done) ∧
    (machine lastBlock (sourceOf 8208 (header 0 1)) []).Inv ∧
      (machine lastBlock (sourceOf 8208 (header 0 1)) []).block.state = .busy ∧
      ∃ t, step (machine lastBlock (sourceOf 8208 (header 0 1)) []) = .next t ∧ t.block.state = .done :=
  ⟨⟨inv_tread [] rfl, rfl, answers_with _ (fun t => t.block.state) _ (by decide)⟩, inv_last, rfl,
    answers_with _ (fun t => t.block.state) _ (by decide)⟩

theorem witness_DonePublishesTheUnpackedSource :
    (machine treadBlock1 (knownSource 32) []).Inv ∧ (machine treadBlock1 (knownSource 32) []).block.state = .busy ∧
      ∃ t, step (machine treadBlock1 (knownSource 32) []) = .next t ∧ (t.block.state, t.block.tilecount) = (.done, 1) :=
  ⟨inv_tread [] rfl, rfl, answers_with _ (fun t => (t.block.state, t.block.tilecount)) _ (by decide)⟩

theorem not_startNext (s : State) (i : Input) (h : s.inputs.head? = some i)
    (hv : ∀ v : Word, i = .host true 0 v → v.extractLsb' 0 8 ≠ 0x01#8) : ¬s.StartNext := by
  rintro ⟨v, h1, h2⟩
  rw [h] at h1
  exact hv v (Option.some.inj h1) h2

theorem witness_DoneResultIsImmutable :
    (∃ t, step (machine doneBlock (knownSource 32) [.host true 0 2]) = .next t) ∧
      (machine doneBlock (knownSource 32) [.host true 0 2]).block.state = .done ∧
      (machine doneBlock (knownSource 32) [.host true 0 2]).block.phase = .done ∧
      (¬(machine doneBlock (knownSource 32) [.host true 0 2]).StartNext) ∧
      (machine doneBlock (knownSource 32) [.host true 0 2]).inputs.head? ≠ some .reset :=
  ⟨answers _ (by decide), rfl, rfl,
    not_startNext _ _ rfl (by rintro v h; cases h; decide), by decide⟩

theorem witness_RunEndsAsTheSourceSays :
    (machine Block.reset (knownSource 32) [.host true 0 1]).Inv ∧
      (machine Block.reset (knownSource 32) [.host true 0 1]).block.state ≠ .busy ∧
      (machine Block.reset (knownSource 32) [.host true 0 1]).source.stall = none ∧
      (machine Block.reset (knownSource 32) [.host true 0 1]).inputs = [.host true 0 1] ∧
      (1 : Word).extractLsb' 0 8 = 0x01#8 :=
  ⟨inv_start, by decide, rfl, rfl, by decide⟩

/-- What R163 says of the source of V-D1 (case 8 with one tile) and of V-H7 (case 4). -/
theorem test_runEnd : (knownSource 32).runEnd = .done 1 ∧
    (sourceOf 16 (header 1 0)).runEnd = .error .unsupportedGraphicsStorage .none 0 0 := by
  decide

theorem witness_RunsDoNotDependOnEarlierRuns :
    (machine Block.reset (knownSource 32) [.host true 0 1]).Inv ∧
      (machine doneBlock (knownSource 32) [.host true 0 1]).Inv ∧
      (machine Block.reset (knownSource 32) [.host true 0 1]).block.state ≠ .busy ∧
      (machine doneBlock (knownSource 32) [.host true 0 1]).block.state ≠ .busy ∧
      (machine doneBlock (knownSource 32) [.host true 0 1]).source =
        (machine Block.reset (knownSource 32) [.host true 0 1]).source ∧
      (1 : Word).extractLsb' 0 8 = 0x01#8 :=
  ⟨inv_start, inv_done _ rfl, by decide, by decide, rfl, by decide⟩

/-- Inside a bank at the last index, at the end of a bank, and at the end of the last bank. -/
theorem witness_TileDecodeStoresAndAdvances :
    ({ tdecBlock with tidx := 130559, tib := 510 } : Block).tidx.toNat < 130560 ∧ tdecBlock.ts.wf = true ∧
      ({ tdecBlock with tidx := 130559, tib := 510 } : Block).tib ≠ 511 ∧
      ({ lastBlock with gbc := 2 } : Block).tib = 511 ∧
      ({ lastBlock with gbc := 2 } : Block).bank.toNat + 1 ≠ ({ lastBlock with gbc := 2 } : Block).gbc.toNat ∧
      lastBlock.bank.toNat + 1 = lastBlock.gbc.toNat := by
  decide

/-- A read that does not fail, and one that does. -/
theorem witness_ReadResponseIsTheSources :
    (machine treadBlock1 (knownSource 37) []).source.stalls (some (.tile 1)) = false ∧
      (knownSource 37).failCode (some (.tile 1)) = none ∧
      ({ knownSource 37 with fail := { hdr := none, seek := none, tiles := [(1, 1)] } } : Source).failCode
        (some (.tile 1)) = some 1 := by
  decide

/-- A read outside a run at the boundary addresses; the header read and the read of tile 1 as their phases
present them; another address during a run, and one while a request is held. -/
theorem witness_SrcReadShowsItsTransaction :
    (doneBlock.accessOf { op := .read, addr := 0 } = none ∧ doneBlock.accessOf { op := .read, addr := 6266880 } = none ∧
      doneBlock.state ≠ .busy ∧ (machine doneBlock (knownSource 37) []).ports.srcPending = none) ∧
    (hdrBlock.accessOf { op := .read, addr := 0 } = some .hdr ∧
      treadBlock1.accessOf { op := .read, addr := 32 } = some (.tile 1) ∧
      (knownSource 37).stalls (some .hdr) = false ∧ (knownSource 37).stalls (some (.tile 1)) = false) ∧
    (treadBlock1.accessOf { op := .read, addr := 16 } = none ∧ treadBlock1.state = .busy ∧
      doneBlock.accessOf { op := .read, addr := 16 } = none ∧
      ({ (machine doneBlock (knownSource 37) []) with
        ports := { Ports.reset with srcPending := some ⟨.read, 32⟩ } } : State).ports.srcPending ≠ none) := by
  decide

theorem witness_SrcSeekShowsItsTransaction :
    (doneBlock.accessOf { op := .seek, addr := 16 } = none ∧ doneBlock.state ≠ .busy ∧
      (machine doneBlock (knownSource 32) []).ports.srcPending = none) ∧
    ((headerBlock .seek).accessOf { op := .seek, addr := 16 } = some .seek ∧
      (knownSource 32).stalls (some .seek) = false) ∧
    ((headerBlock .seek).accessOf { op := .seek, addr := 16400 } = none ∧ (headerBlock .seek).state = .busy ∧
      ({ (machine doneBlock (knownSource 37) []) with
        ports := { Ports.reset with srcPending := some ⟨.read, 32⟩ } } : State).ports.srcPending ≠ none) := by
  decide

/-- V-F8: the read of tile 1 is never answered. -/
theorem witness_StalledSourceHoldsThePhaseForever :
    (machine treadBlock1 { knownSource 48 with stall := some (.tile 1) } []).inputs = [] ∧
      treadBlock1.request? = some (.tile 1, { op := .read, addr := 32 }) ∧
      ({ knownSource 48 with stall := some (.tile 1) } : Source).stall = some (.tile 1) := by
  decide

/-- A machine whose read of tile 1 is stalled and held, with these inputs. -/
def heldMachine (inputs : List Input) : State :=
  { (machine treadBlock1 { knownSource 32 with stall := some (.tile 1) } inputs) with
    ports := { Ports.reset with srcPending := some ⟨.read, 32⟩ } }

theorem inv_held (inputs : List Input) (h : inputs.all Input.wf = true) : (heldMachine inputs).Inv := by
  have hi := inv_tread [] rfl
  refine ⟨hi.legal, ⟨hi.data.header, hi.data.magic, hi.data.counts, hi.data.within, hi.data.tile, hi.data.stored⟩,
    ⟨by show (0 : BitVec 128) = entry (bytesOfBus 0); decide, fun q hq => ⟨.tile 1, ?_, rfl⟩⟩,
    by show ({ knownSource 32 with stall := some (.tile 1) } : Source).wf = true; decide, h⟩
  cases hq
  rfl

/-- The phase's turn, a rejected START, and the transaction the phase presents, while the request is held. -/
theorem witness_HeldRequestFallsOnlyAtReset :
    (heldMachine []).Inv ∧ (heldMachine []).ports.srcPending = some ⟨.read, 32⟩ ∧
      (∃ t, step (heldMachine []) = .next t) ∧
      ((heldMachine [.host true 0 1]).Inv ∧ ∃ t, step (heldMachine [.host true 0 1]) = .next t) ∧
      (heldMachine [.sourcePort false 32]).Inv ∧ ∃ t, step (heldMachine [.sourcePort false 32]) = .next t :=
  ⟨inv_held _ rfl, rfl, answers _ (by decide), ⟨inv_held _ rfl, answers _ (by decide)⟩, inv_held _ rfl,
    answers _ (by decide)⟩

/-- R67, R236: no second transaction while the read of tile 1 is held. -/
theorem test_source_port_while_held :
    step (heldMachine [.sourcePort false 48]) = .fault .sourceInUse ∧
      step (heldMachine [.sourcePort true 16]) = .fault .sourceInUse :=
  ⟨rfl, rfl⟩

/-- R236: the read that P_TREAD presents completes TILE_READ (V-D1, tile 0). -/
theorem test_srcRead_presented :
    seen (step (machine treadBlock (knownSource 32) [.sourcePort false 16])) (fun t => (t.block.phase, t.block.tbuf)) =
      some (.tdec, known) := by
  decide

/-- R236: the seek that P_SEEK presents completes BANK_SEEK. -/
theorem test_srcSeek_presented :
    seen (step (machine { headerBlock .seek with gbc := 1 } (knownSource 32) [.sourcePort true 16]))
      (fun t => (t.block.phase, t.block.pos)) = some (.tread, 16) := by
  decide

/-- What a transaction was, and whether one completed. -/
def requestOf (t : State) : Option SrcRequest := t.ports.srcDone.map Prod.fst

/-- The header read, the seek and the read of a tile. -/
theorem witness_TransactionsKeepTheDiscipline :
    ((machine hdrBlock (knownSource 32) []).Inv ∧ hdrBlock.state = .busy ∧
      ∃ t, step (machine hdrBlock (knownSource 32) []) = .next t ∧ requestOf t = some ⟨.read, 0⟩) ∧
    ((machine { headerBlock .seek with gbc := 1 } (knownSource 32) []).Inv ∧
      ∃ t, step (machine { headerBlock .seek with gbc := 1 } (knownSource 32) []) = .next t ∧
        requestOf t = some ⟨.seek, 16⟩) ∧
    (machine treadBlock1 (knownSource 32) []).Inv ∧
      ∃ t, step (machine treadBlock1 (knownSource 32) []) = .next t ∧ requestOf t = some ⟨.read, 32⟩ :=
  ⟨⟨inv_hdr [] rfl, rfl, answers_with _ requestOf _ (by decide)⟩,
    ⟨inv_seek, answers_with _ requestOf _ (by decide)⟩,
    inv_tread [] rfl, answers_with _ requestOf _ (by decide)⟩

theorem witness_ErrorEntryRecordsTheFailingStep :
    (∃ t, step (machine treadBlock1 (knownSource 37) []) = .next t ∧ t.block.state = .error) ∧
      (machine treadBlock1 (knownSource 37) []).block.state = .busy :=
  ⟨answers_with _ (fun t => t.block.state) _ (by decide), rfl⟩

theorem witness_ErrorShowsNoTile :
    (machine errorBlock (knownSource 37) []).Inv ∧ (machine errorBlock (knownSource 37) []).block.state = .error :=
  ⟨inv_error [] rfl, rfl⟩

theorem witness_ErrorIsLeftOnlyByStartOrReset :
    (∃ t, step (machine errorBlock (knownSource 37) [.host true 0 1]) = .next t) ∧
    (∃ t, step (machine errorBlock (knownSource 37) [.reset]) = .next t) ∧
    (∃ t, step (machine errorBlock (knownSource 37) []) = .next t) ∧
    errorBlock.state = .error ∧ errorBlock.phase = .error :=
  ⟨answers _ (by decide), answers _ (by decide), answers _ (by decide), rfl, rfl⟩

theorem witness_PhaseStepsFollowTheTable :
    (machine treadBlock1 (knownSource 32) []).SequencerNext ∧
      (machine treadBlock1 (knownSource 32) [.sequencer]).SequencerNext ∧
      (∃ t, step (machine treadBlock1 (knownSource 32) []) = .next t) ∧
      ∃ t, step (machine treadBlock1 (knownSource 32) [.sequencer]) = .next t :=
  ⟨.inl rfl, .inr (.inl rfl), answers _ (by decide), answers _ (by decide)⟩

theorem witness_HostAccessLeavesTheRunUndisturbed :
    (machine treadBlock1 (knownSource 32) [.host true 0 1]).inputs.head? = some (.host true 0 1) ∧
      (machine treadBlock1 (knownSource 32) [.host true 0 1]).block.state = .busy ∧
      ∃ t, step (machine treadBlock1 (knownSource 32) [.host true 0 1]) = .next t :=
  ⟨rfl, rfl, answers _ (by decide)⟩

theorem witness_PhaseStepsIgnoreHostRegistersAndFreeValues :
    (machine { treadBlock1 with rej := true, tsel := 5 } (knownSource 32) []).source =
        (machine treadBlock1 (knownSource 32) []).source ∧
      ({ treadBlock1 with rej := true, tsel := 5 } : Block) =
        { treadBlock1 with
          rej := ({ treadBlock1 with rej := true, tsel := 5 } : Block).rej
          tsel := ({ treadBlock1 with rej := true, tsel := 5 } : Block).tsel } ∧
      (seen (exec .tileRead (machine treadBlock1 (knownSource 32) [])) fun _ => ()) = some () ∧
      (seen (exec .tileDecode (machine tdecBlock (knownSource 32) [])) fun _ => ()) = some () := by
  decide

theorem witness_IdleBlockWaits :
    State.reset.inputs = [] ∧ State.reset.block.phase.runState ≠ .busy ∧ doneBlock.phase.runState ≠ .busy ∧
      errorBlock.phase.runState ≠ .busy := by
  decide

theorem witness_ResetGivesEveryRegisterItsValue :
    (machine treadBlock1 (knownSource 32) [.reset, .sequencer]).inputs = .reset :: [.sequencer] := rfl

theorem witness_EveryStepKeepsTheInvariant :
    (machine lastBlock (sourceOf 8208 (header 0 1)) []).Inv ∧
      ∃ t, step (machine lastBlock (sourceOf 8208 (header 0 1)) []) = .next t :=
  ⟨inv_last, answers _ (by decide)⟩

/-- A step that answers, and the two that nobody may ask for. -/
theorem witness_EveryStepAnswers :
    (machine treadBlock1 (knownSource 32) []).Inv ∧
      (machine treadBlock1 (knownSource 32) [.attach Source.empty]).Inv ∧
      (machine treadBlock1 (knownSource 32) [.attach Source.empty]).block.state = .busy ∧
      (machine treadBlock1 (knownSource 32) [.sourcePort false 16]).Inv :=
  ⟨inv_tread [] rfl, inv_tread _ rfl, rfl, inv_tread _ rfl⟩

theorem witness_AttachReplacesOnlyTheSource :
    (machine doneBlock (knownSource 32) [.attach Source.empty]).inputs = .attach Source.empty :: [] ∧
      (machine doneBlock (knownSource 32) [.attach Source.empty]).block.state ≠ .busy := by
  decide

theorem witness_DecodeOfEncodeIsTheOperation :
    (Instr.rdreg 31).wellFormed = true ∧ (Instr.rdreg 7).wellFormed = true ∧ (Instr.start 0xFFFFFF).wellFormed = true := by
  decide

theorem witness_EncodeOfDecodeIsTheWord :
    decode (.hostR 0b011111#6) = .ok (.rdreg 31) ∧ decode (.srcReq 0xFFFFFF) = .ok (.srcSeek 0x7FFFFF) := by
  decide

theorem witness_StepRunsTheDecodedOperation :
    (treadBlock1.phase.code = 6 ∧ decode (.phase treadBlock1.phase.code) = .ok .tileRead) ∧
      (Input.host true 7 0).present treadBlock1.phase = .word (.hostW 0x2700000000) ∧
      decode (.hostW 0x2700000000) = .ok (.wrtsel 0 0 0) := by
  decide

end Sys2Proof.Tests
end

section
/-!
The invariant's register part, `Block.Legal`, along every edge of the control-transfer table (R104) and
under every input (R41 (a) to (f)). Each lemma restates only the clauses that its edge touches.
-/

namespace Sys2Proof.Machine

variable {b : Block}

/-- REJ and TSEL are in no clause of the invariant (R23, R36). -/
theorem Block.Legal.withHostRegisters (h : b.Legal) (r : Bool) (x : BitVec 20) :
    ({ b with rej := r, tsel := x } : Block).Legal := { h with }

/-- A store at an index that exists keeps the registers legal (R37, R68). -/
theorem Block.Legal.withStored (h : b.Legal) {i : Nat} (hi : i < Config.tileStoreSize) (w : Entry) :
    ({ b with ts := b.ts.write i w } : Block).Legal :=
  { h with
    ts_wf := Memory.write_wf b.ts i w h.ts_wf
    ts_below := Memory.write_below b.ts i _ w h.ts_below hi }

/-- The registers after reset are legal (R45). -/
theorem Block.Legal.reset : Block.reset.Legal := by
  constructor <;> decide

/-- An accepted START leaves legal registers (R121). -/
theorem Block.Legal.startRun (h : b.Legal) : b.startRun.Legal where
  state_of_phase := rfl
  tidx_eq := rfl
  tidx_le := Nat.zero_le _
  pos_aligned := rfl
  pos_le := Nat.zero_le _
  pos_hdr _ := rfl
  pos_afterHeader := nofun
  pos_tread := nofun
  pos_tdec := nofun
  loop_zero _ := ⟨rfl, rfl, rfl⟩
  loop_bound := nofun
  counts_unlatched _ := ⟨rfl, rfl⟩
  gbc_seek := nofun
  tilecount_done hn := absurd rfl hn
  tilecount_eq := nofun
  ecode_error := by simp
  errors_legal := List.mem_cons_self
  etile_zero _ := rfl
  esrc_zero _ := rfl
  ts_wf := h.ts_wf
  ts_below := h.ts_below

/-- Error entry leaves legal registers when the record is one of the error table (R99, R200, R210). -/
theorem Block.Legal.raise (h : b.Legal) {k : ErrorKind} {p : ErrorPhase} {n : TileIdx} {x : Byte}
    (hk : k ≠ .none) (hkp : (k, p) ∈ legalErrors) (hn : p ≠ .tileRead → n = 0)
    (hx : k ≠ .sourceFailure → x = 0) : (b.raise k p n x).Legal :=
  { h with
    state_of_phase := rfl
    pos_hdr := nofun
    pos_afterHeader := nofun
    pos_tread := nofun
    pos_tdec := nofun
    loop_zero := nofun
    loop_bound := nofun
    counts_unlatched := nofun
    gbc_seek := nofun
    tilecount_done := fun hz => absurd rfl hz
    tilecount_eq := nofun
    ecode_error := by simp [hk]
    errors_legal := hkp
    etile_zero := hn
    esrc_zero := hx }

/-- While BUSY no error is recorded (R41 (f)). -/
theorem Block.Legal.ecode_of_busy (h : b.Legal) (hb : b.state = .busy) : b.ecode = .none := by
  by_contra hne
  have := h.ecode_error.1 hne
  simp [hb] at this

/-- Completion of a run, with the loop registers at any legal place (R162). -/
theorem Block.Legal.completeAt (h : b.Legal) (hb : b.state = .busy) {i : TileIdx} {bank : BitVec 8}
    {tib : BitVec 9} (hi : i.toNat = 512 * bank.toNat + tib.toNat) (hle : i.toNat ≤ Config.tileStoreSize) :
    ({ b.complete i with tidx := i, tib := tib, bank := bank } : Block).Legal :=
  { h with
    state_of_phase := rfl
    tidx_eq := hi
    tidx_le := hle
    pos_hdr := nofun
    pos_afterHeader := nofun
    pos_tread := nofun
    pos_tdec := nofun
    loop_zero := nofun
    loop_bound := nofun
    counts_unlatched := nofun
    gbc_seek := nofun
    tilecount_done := fun _ => rfl
    tilecount_eq := fun _ => rfl
    ecode_error := by simp [h.ecode_of_busy hb] }

/-- Completion at the current tile (R160, R162). -/
theorem Block.Legal.complete (h : b.Legal) (hb : b.state = .busy) : (b.complete b.tidx).Legal :=
  h.completeAt hb h.tidx_eq h.tidx_le

/-- The address after a legal POS does not wrap (R24). -/
theorem Block.Legal.pos_add_toNat (h : b.Legal) : (b.pos + 16).toNat = b.pos.toNat + 16 := by
  have := h.pos_le
  bv_omega

/-- P_HDR to P_MAGIC (R140). -/
theorem Block.Legal.toMagic (h : b.Legal) (hp : b.phase = .hdr) (x : Bytes16) :
    ({ b with hdr := x, pos := b.pos + 16, phase := .magic } : Block).Legal := by
  have hpos : b.pos + 16 = 16#23 := by rw [h.pos_hdr hp]; rfl
  rw [hpos]
  exact
    { h with
      state_of_phase := by simp [h.state_of_phase, hp, Phase.runState]
      pos_aligned := by simp only; decide
      pos_le := by simp only; decide
      pos_hdr := nofun
      pos_afterHeader := fun _ => rfl
      pos_tread := nofun
      pos_tdec := nofun
      loop_zero := fun _ => h.loop_zero (by rw [hp]; rfl)
      loop_bound := nofun
      counts_unlatched := fun _ => h.counts_unlatched (.inl hp)
      gbc_seek := nofun }

/-- P_MAGIC to P_COUNTS (R141). -/
theorem Block.Legal.toCounts (h : b.Legal) (hp : b.phase = .magic) :
    ({ b with phase := .counts } : Block).Legal :=
  { h with
    state_of_phase := by simp [h.state_of_phase, hp, Phase.runState]
    pos_hdr := nofun
    pos_afterHeader := fun _ => h.pos_afterHeader (by rw [hp]; rfl)
    pos_tread := nofun
    pos_tdec := nofun
    loop_zero := fun _ => h.loop_zero (by rw [hp]; rfl)
    loop_bound := nofun
    counts_unlatched := nofun
    gbc_seek := nofun }

/-- P_COUNTS to P_GFXCHK (R142). -/
theorem Block.Legal.toGfxchk (h : b.Legal) (hp : b.phase = .counts) (p g : Byte) :
    ({ b with pbc := p, gbc := g, phase := .gfxchk } : Block).Legal :=
  { h with
    state_of_phase := by simp [h.state_of_phase, hp, Phase.runState]
    pos_hdr := nofun
    pos_afterHeader := fun _ => h.pos_afterHeader (by rw [hp]; rfl)
    pos_tread := nofun
    pos_tdec := nofun
    loop_zero := fun _ => h.loop_zero (by rw [hp]; rfl)
    loop_bound := nofun
    counts_unlatched := nofun
    gbc_seek := nofun }

/-- P_GFXCHK to P_SEEK (R143, R144). -/
theorem Block.Legal.toSeek (h : b.Legal) (hp : b.phase = .gfxchk) (hg : b.gbc ≠ 0) :
    ({ b with phase := .seek } : Block).Legal :=
  { h with
    state_of_phase := by simp [h.state_of_phase, hp, Phase.runState]
    pos_hdr := nofun
    pos_afterHeader := fun _ => h.pos_afterHeader (by rw [hp]; rfl)
    pos_tread := nofun
    pos_tdec := nofun
    loop_zero := fun _ => h.loop_zero (by rw [hp]; rfl)
    loop_bound := nofun
    counts_unlatched := nofun
    gbc_seek := fun _ => hg }

/-- P_SEEK to P_TREAD: POS is the region's base and the loop starts at tile 0 (R41 (c), R151). -/
theorem Block.Legal.toFirstTread (h : b.Legal) (hp : b.phase = .seek) :
    ({ b with pos := gfxBase b.pbc, phase := .tread } : Block).Legal := by
  have hpos := gfxBase_toNat b.pbc
  have hpbc := b.pbc.isLt
  obtain ⟨ht, hbank, htib⟩ := h.loop_zero (by rw [hp]; rfl)
  have hgbc : 1 ≤ b.gbc.toNat := by
    have hne := h.gbc_seek hp
    have : b.gbc.toNat ≠ 0 := fun e => hne (BitVec.eq_of_toNat_eq e)
    omega
  exact
    { h with
      state_of_phase := by simp [h.state_of_phase, hp, Phase.runState]
      pos_aligned := by simp only [hpos]; omega
      pos_le := by simp only [hpos]; omega
      pos_hdr := nofun
      pos_afterHeader := nofun
      pos_tread := fun _ => by simp [hpos, ht]
      pos_tdec := nofun
      loop_zero := nofun
      loop_bound := fun _ => by simp only [ht, hbank]; bv_omega
      counts_unlatched := nofun
      gbc_seek := nofun }

/-- P_TREAD to P_TDEC: POS is past the tile just read (R41 (c), R160). -/
theorem Block.Legal.toTdec (h : b.Legal) (hp : b.phase = .tread) (x : Bytes16) :
    ({ b with tbuf := x, pos := b.pos + 16, phase := .tdec } : Block).Legal := by
  have hadd := h.pos_add_toNat
  have hpos := h.pos_tread hp
  have hbound := h.loop_bound (by rw [hp]; rfl)
  have hpbc := b.pbc.isLt
  have hgbc := b.gbc.isLt
  exact
    { h with
      state_of_phase := by simp [h.state_of_phase, hp, Phase.runState]
      pos_aligned := by simp only [hadd]; omega
      pos_le := by simp only [hadd]; omega
      pos_hdr := nofun
      pos_afterHeader := nofun
      pos_tread := nofun
      pos_tdec := fun _ => by simp only [hadd]; omega
      loop_zero := nofun
      loop_bound := fun _ => hbound
      counts_unlatched := nofun
      gbc_seek := nofun }

/-- P_TDEC to P_TREAD, with the loop registers at a place below the bound (R41 (e), R184). -/
theorem Block.Legal.toNextTread (h : b.Legal) (hp : b.phase = .tdec) {i : TileIdx} {bank : BitVec 8}
    {tib : BitVec 9} (hi : i.toNat = 512 * bank.toNat + tib.toNat) (hnext : i.toNat = b.tidx.toNat + 1)
    (hbank : bank.toNat < b.gbc.toNat) :
    ({ b with tidx := i, tib := tib, bank := bank, phase := .tread } : Block).Legal := by
  have htib := tib.isLt
  have hgbc := b.gbc.isLt
  exact
    { h with
      state_of_phase := by simp [h.state_of_phase, hp, Phase.runState]
      tidx_eq := hi
      tidx_le := by simp only [Config.tileStoreSize]; omega
      tilecount_eq := fun hd => absurd (h.state_of_phase.symm.trans hd) (by rw [hp]; nofun)
      pos_hdr := nofun
      pos_afterHeader := nofun
      pos_tread := fun _ => by simp only [h.pos_tdec hp, hnext]
      pos_tdec := nofun
      loop_zero := nofun
      loop_bound := fun _ => by simp only; omega
      counts_unlatched := nofun
      gbc_seek := nofun }

/-- What the loop control does in P_TDEC (R184): the index rises by one without wrapping, and the loop goes
on inside the declared banks or the run completes right after the last of them. -/
theorem Block.Legal.advanceTile_cases (h : b.Legal) (hp : b.phase = .tdec) :
    (b.tidx + 1).toNat = b.tidx.toNat + 1 ∧
      ∃ (bank : BitVec 8) (tib : BitVec 9), (b.tidx + 1).toNat = 512 * bank.toNat + tib.toNat ∧
        ((bank.toNat < b.gbc.toNat ∧
            b.advanceTile = { b with tidx := b.tidx + 1, tib := tib, bank := bank, phase := .tread }) ∨
          (bank.toNat = b.gbc.toNat ∧ tib = 0 ∧
            b.advanceTile =
              { b.complete (b.tidx + 1) with tidx := b.tidx + 1, tib := tib, bank := bank })) := by
  have heq := h.tidx_eq
  have hgbc := b.gbc.isLt
  have htib := b.tib.isLt
  obtain ⟨-, hbank, hidx⟩ := h.loop_bound (by rw [hp]; rfl)
  have hnext : (b.tidx + 1).toNat = b.tidx.toNat + 1 := by
    bv_omega
  refine ⟨hnext, ?_⟩
  by_cases hlast : b.tib = 511#9
  · have hb1 : (b.bank + 1).toNat = b.bank.toNat + 1 := by
      bv_omega
    have hidx' : (b.tidx + 1).toNat = 512 * (b.bank + 1).toNat + (0 : BitVec 9).toNat := by
      rw [hnext, hb1, heq, hlast]
      bv_omega
    refine ⟨b.bank + 1, 0, hidx', ?_⟩
    by_cases hend : b.bank.toNat + 1 = b.gbc.toNat
    · exact .inr ⟨hb1.trans hend, rfl, by simp only [Block.advanceTile, hlast, hend, if_true]⟩
    · exact .inl ⟨by omega, by simp only [Block.advanceTile, hlast, hend, if_true, if_false]⟩
  · have ht1 : (b.tib + 1).toNat = b.tib.toNat + 1 := by
      have : b.tib.toNat ≠ 511 := fun e => hlast (BitVec.eq_of_toNat_eq e)
      bv_omega
    exact ⟨b.bank, b.tib + 1, by omega, .inl ⟨hbank, by simp only [Block.advanceTile, hlast, if_false]⟩⟩

/-- The loop control keeps the registers legal (R41 (b), (c), (e), R162, R184). -/
theorem Block.Legal.advanceTile (h : b.Legal) (hp : b.phase = .tdec) : b.advanceTile.Legal := by
  obtain ⟨hnext, bank, tib, hi, ⟨hlt, e⟩ | ⟨hbank, htib, e⟩⟩ := h.advanceTile_cases hp
  · rw [e]
    exact h.toNextTread hp hi hnext hlt
  · rw [e]
    have hb : b.state = .busy := by rw [h.state_of_phase, hp]; rfl
    have hle : (b.tidx + 1).toNat ≤ Config.tileStoreSize := by
      have hgbc := b.gbc.isLt
      rw [hi, htib, hbank, Config.tileStoreSize]
      bv_omega
    exact h.completeAt hb hi hle

/-- Every phase step keeps the registers legal. -/
theorem Block.PhaseStep.legal {src : Source} {c : Block} (hs : Block.PhaseStep src b c) (h : b.Legal) :
    c.Legal := by
  cases hs with
  | wait => exact h
  | header hp =>
    split
    · exact h.raise nofun (by decide) (fun _ => rfl) (absurd rfl)
    · split
      · exact h.toMagic hp _
      · exact h.raise nofun (by decide) (fun _ => rfl) (fun _ => rfl)
  | magic hp =>
    split
    · exact h.toCounts hp
    · exact h.raise nofun (by decide) (fun _ => rfl) (fun _ => rfl)
  | counts hp => exact h.toGfxchk hp _ _
  | gfx hp =>
    split
    · exact h.raise nofun (by decide) (fun _ => rfl) (fun _ => rfl)
    · exact h.toSeek hp ‹_›
  | seek hp =>
    split
    · exact h.raise nofun (by decide) (fun _ => rfl) (absurd rfl)
    · exact h.toFirstTread hp
  | tile hp =>
    split
    · exact h.raise nofun (by decide) (absurd rfl) (absurd rfl)
    · split
      · exact h.raise nofun (by decide) (absurd rfl) (fun _ => rfl)
      · split
        · exact h.toTdec hp _
        · split
          · exact h.complete (by rw [h.state_of_phase, hp]; rfl)
          · exact h.raise nofun (by decide) (absurd rfl) (fun _ => rfl)
  | decode hp ht => exact (h.withStored ht _).advanceTile hp

/-- What an input makes of the block (R23, R36, R75): an accepted START, a reset, or nothing but REJ and
TSEL. -/
theorem Block.after_cases (b : Block) (x : Input) :
    (b.after x = b.startRun ∧ b.state ≠ .busy ∧ ∃ v, x = .host true 0 v ∧ v.extractLsb' 0 8 = 0x01#8) ∨
      (b.after x = Block.reset ∧ x = .reset) ∨
      b.after x = { b with rej := (b.after x).rej, tsel := (b.after x).tsel } := by
  cases x with
  | reset => exact .inr (.inl ⟨rfl, rfl⟩)
  | host we idx v =>
    by_cases hcmd : we = true ∧ idx = 0
    · obtain ⟨rfl, rfl⟩ := hcmd
      by_cases hstart : v.extractLsb' 0 8 = 0x01#8 ∧ b.state ≠ .busy
      · exact .inl ⟨by simp [Block.after, hstart], hstart.2, v, rfl, hstart.1⟩
      · have e : b.after (.host true 0 v) = b.reject := by
          simp only [Block.after, hstart, and_self, if_true, if_false]
        rw [e]
        exact .inr (.inr rfl)
    · by_cases hsel : we = true ∧ idx = 7
      · have e : b.after (.host we idx v) = { b with tsel := v.extractLsb' 0 20 } := by
          simp [Block.after, hsel]
        rw [e]
        exact .inr (.inr rfl)
      · have e : b.after (.host we idx v) = b := by
          simp only [Block.after, hcmd, hsel, if_false]
        rw [e]
        exact .inr (.inr rfl)
  | sequencer | sourcePort | unpackPort | attach => exact .inr (.inr rfl)

/-- Every input keeps the registers legal. -/
theorem Block.Legal.after (h : b.Legal) (x : Input) : (b.after x).Legal := by
  obtain ⟨e, -⟩ | ⟨e, -⟩ | e := b.after_cases x
  · exact e ▸ h.startRun
  · exact e ▸ Block.Legal.reset
  · exact e ▸ h.withHostRegisters _ _

end Sys2Proof.Machine
end

section
/-!
The invariant's data part, `State.RunData`, along every edge of the control-transfer table and under every
input (R41 (g), R140 to R144, R160, R184), and the tiles that the store holds (R41 (g), R76).
-/

namespace Sys2Proof.Machine

variable {s : State}

/-- `RunData` speaks of the block and the source only. -/
theorem State.RunData.congr {t : State} (hd : s.RunData) (hb : t.block = s.block)
    (hs : t.source = s.source) : t.RunData := by
  have e : ({ s with block := t.block, source := t.source } : State).RunData := by
    rw [hb, hs]
    exact hd
  exact { e with }

/-- Outside the run, and in P_HDR, nothing is held of the source yet. -/
theorem State.RunData.of_unread (ha : s.block.phase.afterHeader = false)
    (hl : s.block.phase.inLoop = false) : s.RunData := by
  have hm : s.block.phase.magicPassed = false ∧ s.block.phase.countsLatched = false := by
    revert ha hl
    cases s.block.phase <;> decide
  obtain ⟨hm, hc⟩ := hm
  exact
    { header := by simp [ha, hl]
      magic := by simp [hm]
      counts := by simp [hc]
      within := fun hp => by simp [hp, Phase.inLoop] at hl
      tile := fun hp => by simp [hp, Phase.inLoop] at hl
      stored := by simp [hl] }

/-- The phases in which POS is 16 come before the tile loop (R104). -/
theorem Phase.inHeader_of_afterHeader {p : Phase} (h : p.afterHeader = true) : p.inHeader = true := by
  revert h
  cases p <;> decide

/-- A block that is not BUSY holds nothing of the source that the invariant speaks of. -/
theorem State.RunData.of_not_busy (hl : s.block.Legal) (hb : s.block.state ≠ .busy) : s.RunData := by
  have hn : ¬(s.block.phase.inHeader = true ∨ s.block.phase.inLoop = true) := fun e => hb (hl.busy_iff.2 e)
  exact .of_unread (Bool.eq_false_iff.2 fun e => hn (.inl (Phase.inHeader_of_afterHeader e)))
    (Bool.eq_false_iff.2 fun e => hn (.inr e))

/-- An error ends the run, and with it every claim about the source (R210). -/
theorem State.RunData.raise (k : ErrorKind) (p : ErrorPhase) (n : TileIdx) (x : Byte) :
    (s.withBlock (s.block.raise k p n x)).RunData :=
  .of_unread rfl rfl

/-- The first `n` entries of the tile store are the unpacked tiles of the source, all of them inside its
extent (R41 (g), R76). -/
def Block.Published (b : Block) (src : Source) (n : Nat) : Prop :=
  ∀ k < n, regionBase b.pbc + 16 * k + 16 ≤ src.image.len ∧
    b.ts.read k = entry (src.image.bytes16 (regionBase b.pbc + 16 * k))

/-- In the tile loop the tiles below TIDX are published. -/
theorem State.RunData.published (hd : s.RunData) (hp : s.block.phase.inLoop = true) :
    s.block.Published s.source s.block.tidx.toNat := by
  intro k hk
  refine ⟨?_, hd.stored hp k hk⟩
  have hext : regionBase s.block.pbc + 16 * s.block.tidx.toNat ≤ s.source.image.len := by
    generalize hphase : s.block.phase = p at hp
    cases p <;> simp [Phase.inLoop] at hp
    · exact hd.within hphase (fun e => by simp [e] at hk)
    · have := (hd.tile hphase).1
      omega
  omega

/-- The store of the tile in TBUF publishes it too (R184). -/
theorem State.RunData.published_stored (hd : s.RunData) (hl : s.block.Legal) (hp : s.block.phase = .tdec) :
    ({ s.block with ts := s.block.ts.write s.block.tidx.toNat (entry s.block.tbuf) } : Block).Published
      s.source (s.block.tidx.toNat + 1) := by
  obtain ⟨hext, htbuf⟩ := hd.tile hp
  intro k hk
  simp only [Memory.read_write _ _ _ _ hl.ts_wf]
  by_cases hkt : s.block.tidx.toNat = k
  · subst hkt
    rw [if_pos rfl, htbuf]
    exact ⟨by omega, rfl⟩
  · rw [if_neg hkt]
    exact hd.published (by rw [hp]; rfl) k (by omega)

/-- P_HDR to P_MAGIC (R140). -/
theorem State.RunData.toMagic (hl : s.block.Legal) (hp : s.block.phase = .hdr)
    (hext : s.block.pos.toNat + 16 ≤ s.source.image.len) :
    (s.withBlock
      { s.block with
        hdr := s.source.image.bytes16 s.block.pos.toNat
        pos := s.block.pos + 16
        phase := .magic }).RunData where
  header _ := by
    rw [hl.pos_hdr hp] at hext ⊢
    exact ⟨by simpa using hext, rfl⟩
  magic := nofun
  counts := nofun
  within := nofun
  tile := nofun
  stored := nofun

/-- The comparison of R91, byte by byte. -/
theorem magicMatches_iff (h : Bytes16) :
    magicMatches h = true ↔ h[0] = 0x4E ∧ h[1] = 0x45 ∧ h[2] = 0x53 ∧ h[3] = 0x1A := by
  simp [magicMatches, Config.magic, and_assoc]

/-- P_MAGIC to P_COUNTS (R141). -/
theorem State.RunData.toCounts (hd : s.RunData) (hp : s.block.phase = .magic)
    (hm : magicMatches s.block.hdr = true) : (s.withBlock { s.block with phase := .counts }).RunData where
  header _ := hd.header (.inl (by rw [hp]; rfl))
  magic _ := (magicMatches_iff _).1 hm
  counts := nofun
  within := nofun
  tile := nofun
  stored := nofun

/-- P_COUNTS to P_GFXCHK (R142). -/
theorem State.RunData.toGfxchk (hd : s.RunData) (hp : s.block.phase = .counts) :
    (s.withBlock
      { s.block with pbc := s.block.hdr[4], gbc := s.block.hdr[5], phase := .gfxchk }).RunData where
  header _ := hd.header (.inl (by rw [hp]; rfl))
  magic _ := hd.magic (by rw [hp]; rfl)
  counts _ := by
    obtain ⟨-, hhdr⟩ := hd.header (.inl (by rw [hp]; rfl))
    simp [hhdr, Image.bytes16]
  within := nofun
  tile := nofun
  stored := nofun

/-- P_GFXCHK to P_SEEK (R143). -/
theorem State.RunData.toSeek (hd : s.RunData) (hp : s.block.phase = .gfxchk) :
    (s.withBlock { s.block with phase := .seek }).RunData where
  header _ := hd.header (.inl (by rw [hp]; rfl))
  magic _ := hd.magic (by rw [hp]; rfl)
  counts _ := hd.counts (by rw [hp]; rfl)
  within := nofun
  tile := nofun
  stored := nofun

/-- P_SEEK to P_TREAD: no tile is read yet (R151). -/
theorem State.RunData.toFirstTread (hd : s.RunData) (hl : s.block.Legal) (hp : s.block.phase = .seek) :
    (s.withBlock { s.block with pos := gfxBase s.block.pbc, phase := .tread }).RunData := by
  obtain ⟨ht, -⟩ := hl.loop_zero (by rw [hp]; rfl)
  exact
    { header := fun _ => hd.header (.inl (by rw [hp]; rfl))
      magic := fun _ => hd.magic (by rw [hp]; rfl)
      counts := fun _ => hd.counts (by rw [hp]; rfl)
      within := fun _ hne => absurd ht hne
      tile := nofun
      stored := fun _ k hk => by simp [ht] at hk }

/-- P_TREAD to P_TDEC: TBUF holds the tile at POS (R41 (c), R160). -/
theorem State.RunData.toTdec (hd : s.RunData) (hl : s.block.Legal) (hp : s.block.phase = .tread)
    (hext : s.block.pos.toNat + 16 ≤ s.source.image.len) :
    (s.withBlock
      { s.block with
        tbuf := s.source.image.bytes16 s.block.pos.toNat
        pos := s.block.pos + 16
        phase := .tdec }).RunData := by
  have hpos : s.block.pos.toNat = regionBase s.block.pbc + 16 * s.block.tidx.toNat := hl.pos_tread hp
  exact
    { header := fun _ => hd.header (.inr (by rw [hp]; rfl))
      magic := fun _ => hd.magic (by rw [hp]; rfl)
      counts := fun _ => hd.counts (by rw [hp]; rfl)
      within := nofun
      tile := fun _ => by
        rw [hpos] at hext ⊢
        exact ⟨hext, rfl⟩
      stored := fun _ => hd.stored (by rw [hp]; rfl) }

/-- P_TDEC to P_TREAD, once the tile is stored and published (R184). -/
theorem State.RunData.toNextTread (hd : s.RunData) (hp : s.block.phase = .tdec) {m : Memory 128}
    {i : TileIdx} {bank : BitVec 8} {tib : BitVec 9}
    (hpub : ({ s.block with ts := m } : Block).Published s.source i.toNat) :
    (s.withBlock
      { s.block with ts := m, tidx := i, tib := tib, bank := bank, phase := .tread }).RunData where
  header _ := hd.header (.inr (by rw [hp]; rfl))
  magic _ := hd.magic (by rw [hp]; rfl)
  counts _ := hd.counts (by rw [hp]; rfl)
  within _ hne := by
    have hpos : i.toNat ≠ 0 := fun e => hne (BitVec.eq_of_toNat_eq e)
    have hext : regionBase s.block.pbc + 16 * (i.toNat - 1) + 16 ≤ s.source.image.len :=
      (hpub (i.toNat - 1) (by omega)).1
    simp only [State.withBlock_block, State.withBlock_source]
    omega
  tile := nofun
  stored _ k hk := (hpub k hk).2

/-- Every phase step keeps what the registers hold of the source. -/
theorem Block.PhaseStep.runData {c : Block} (hs : Block.PhaseStep s.source s.block c) (hl : s.block.Legal)
    (hd : s.RunData) : (s.withBlock c).RunData := by
  cases hs with
  | wait => exact hd
  | header hp =>
    split
    · exact .raise ..
    · split
      · exact .toMagic hl hp ‹_›
      · exact .raise ..
  | magic hp =>
    split
    · exact hd.toCounts hp ‹_›
    · exact .raise ..
  | counts hp => exact hd.toGfxchk hp
  | gfx hp =>
    split
    · exact .raise ..
    · exact hd.toSeek hp
  | seek hp =>
    split
    · exact .raise ..
    · exact hd.toFirstTread hl hp
  | tile hp =>
    split
    · exact .raise ..
    · split
      · exact .raise ..
      · split
        · exact hd.toTdec hl hp ‹_›
        · split
          · exact .of_unread rfl rfl
          · exact .raise ..
  | decode hp ht =>
    have hpub := hd.published_stored hl hp
    obtain ⟨hnext, bank, tib, -, ⟨-, e⟩ | ⟨-, -, e⟩⟩ :=
      (hl.withStored ht (entry s.block.tbuf)).advanceTile_cases hp
    · rw [e]
      exact hd.toNextTread hp (hnext ▸ hpub)
    · rw [e]
      exact .of_unread rfl rfl

/-- Every input keeps what the registers hold of the source; the source itself may change only outside a
run (R241). -/
theorem State.RunData.after {t : State} (hd : s.RunData) (hl : s.block.Legal) {x : Input}
    (hb : t.block = s.block.after x) (hs : s.block.state = .busy → t.source = s.source) : t.RunData := by
  obtain ⟨e, -⟩ | ⟨e, -⟩ | e := s.block.after_cases x
  · exact .of_unread (by rw [hb, e]; rfl) (by rw [hb, e]; rfl)
  · exact .of_unread (by rw [hb, e]; rfl) (by rw [hb, e]; rfl)
  · by_cases hbusy : s.block.state = .busy
    · have hkeep : (s.withBlock (s.block.after x)).RunData := by
        rw [e]
        exact { hd with }
      exact hkeep.congr hb (hs hbusy)
    · exact .of_not_busy (hb ▸ hl.after x) (by rw [hb, e]; exact hbusy)

end Sys2Proof.Machine
end

section
/-!
The invariant's port part, `State.PortsLegal` (R185, R247), and the whole invariant: it holds at reset and
every step that answers keeps it (R41, R45).
-/

namespace Sys2Proof.Machine

variable {s t : State}

/-- No request is held where the phase presents none. -/
theorem State.PortsLegal.pending_none (hp : s.PortsLegal) (hr : s.block.request? = none) :
    s.ports.srcPending = none := by
  cases h : s.ports.srcPending with
  | none => rfl
  | some q =>
    obtain ⟨acc, hacc, -⟩ := hp.pending q h
    simp [hr] at hacc

/-- With no request held, only the unpack port is left to check. -/
theorem State.PortsLegal.of_none (hu : t.ports.utOut = entry (bytesOfBus t.ports.utIn))
    (hn : t.ports.srcPending = none) : t.PortsLegal :=
  ⟨hu, fun q hq => by simp [hn] at hq⟩

/-- A step that leaves the unpack port, the held request, the request presented and the source alone. -/
theorem State.PortsLegal.kept (hp : s.PortsLegal) (hi : t.ports.utIn = s.ports.utIn)
    (ho : t.ports.utOut = s.ports.utOut) (hq : t.ports.srcPending = s.ports.srcPending)
    (hr : t.block.request? = s.block.request?) (hs : t.source = s.source) : t.PortsLegal where
  unpack := by rw [hi, ho, hp.unpack]
  pending q h := by
    rw [hr, hs]
    exact hp.pending q (hq ▸ h)

/-- A request held because the source stalls the access that the phase presents (R247). -/
theorem State.PortsLegal.held (hp : s.PortsLegal) {acc : Access} {q : SrcRequest}
    (hr : s.block.request? = some (acc, q)) (hs : s.source.stall = some acc) : (s.holdRequest q).PortsLegal where
  unpack := hp.unpack
  pending q' h := by
    obtain rfl : q = q' := by simpa using h
    exact ⟨acc, hr, (s.source.stalls_some acc).2 hs⟩

/-- A step that leaves the ports alone where the phase presents no request: none was held, none is. -/
theorem State.PortsLegal.unpresented (hp : s.PortsLegal) (hr : s.block.request? = none)
    (hi : t.ports.utIn = s.ports.utIn) (ho : t.ports.utOut = s.ports.utOut)
    (hq : t.ports.srcPending = s.ports.srcPending) : t.PortsLegal :=
  .of_none (by rw [hi, ho, hp.unpack]) (by rw [hq, hp.pending_none hr])

/-- A read that the source answers leaves no request held (R236). -/
theorem State.srcRead16_srcPending {acc : Option Access} {a : SrcAddr} (h : s.source.stalls acc = false) :
    (s.srcRead16 acc a).1.ports.srcPending = none := by
  simp [State.srcRead16_answered s acc a h]

/-- A seek that the source answers leaves no request held (R236). -/
theorem State.srcSeek_srcPending {acc : Option Access} {a : SrcAddr} (h : s.source.stalls acc = false) :
    (s.srcSeek acc a).1.ports.srcPending = none := by
  simp [State.srcSeek_answered s acc a h]

/-- What a phase step does to the held request: nothing in a phase that presents none; else the source answers
and it falls, or the source stalls the access and it is held (R236, R247). -/
theorem phaseStep_srcPending (h : phaseStep s = .next t) :
    (s.block.request? = none ∧ t.ports.srcPending = s.ports.srcPending) ∨ t.ports.srcPending = none ∨
      ∃ acc q, s.block.request? = some (acc, q) ∧ s.source.stall = some acc ∧ t = s.holdRequest q := by
  unfold phaseStep at h
  split at h <;> rename_i hp
  · cases h
    exact .inl ⟨by simp [Block.request?, hp], rfl⟩
  · by_cases hs : s.source.stall = some .hdr
    · rw [execHdrRead_stalled s hs] at h
      cases h
      exact .inr (.inr ⟨_, _, by simp [Block.request?, hp], hs, rfl⟩)
    · rw [execHdrRead_answered s hs] at h
      cases h
      exact .inr (.inl (s.srcRead16_srcPending ((s.source.stalls_some_false _).2 hs)))
  · unfold execMagicCheck at h
    split at h <;> cases h <;> exact .inl ⟨by simp [Block.request?, hp], rfl⟩
  · cases h
    exact .inl ⟨by simp [Block.request?, hp], rfl⟩
  · unfold execGfxCheck at h
    split at h <;> cases h <;> exact .inl ⟨by simp [Block.request?, hp], rfl⟩
  · by_cases hs : s.source.stall = some .seek
    · rw [execBankSeek_stalled s hs] at h
      cases h
      exact .inr (.inr ⟨_, _, by simp [Block.request?, hp], hs, rfl⟩)
    · rw [execBankSeek_answered s hs] at h
      cases h
      exact .inr (.inl (s.srcSeek_srcPending ((s.source.stalls_some_false _).2 hs)))
  · by_cases hs : s.source.stall = some (.tile s.block.tidx.toNat)
    · rw [execTileRead_stalled s hs] at h
      cases h
      exact .inr (.inr ⟨_, _, by simp [Block.request?, hp], hs, rfl⟩)
    · rw [execTileRead_answered s hs] at h
      cases h
      exact .inr (.inl (s.srcRead16_srcPending ((s.source.stalls_some_false _).2 hs)))
  · unfold execTileDecode at h
    split at h <;> cases h
    exact .inl ⟨by simp [Block.request?, hp], rfl⟩
  · cases h
    exact .inl ⟨by simp [Block.request?, hp], rfl⟩
  · cases h
    exact .inl ⟨by simp [Block.request?, hp], rfl⟩

/-- Every phase step keeps the ports legal. -/
theorem State.PortsLegal.phaseStep (hp : s.PortsLegal) (h : phaseStep s = .next t) : t.PortsLegal := by
  obtain ⟨-, -, -, hi, ho⟩ := phaseStep_next s t h
  obtain ⟨hr, hq⟩ | hn | ⟨acc, q, hr, hs, rfl⟩ := phaseStep_srcPending h
  · exact hp.unpresented hr hi ho hq
  · exact .of_none (by rw [hi, ho, hp.unpack]) hn
  · exact hp.held hr hs

/-- Every step that answers keeps the ports legal. Outside a run no request is held, so START and attaching
another source leave none behind. -/
theorem State.PortsLegal.step (hp : s.PortsLegal) (hl : s.block.Legal) (h : step s = .next t) :
    t.PortsLegal := by
  have hc : s.consumed.PortsLegal := ⟨hp.unpack, hp.pending⟩
  revert t
  apply step_cases s (fun o => ∀ {t}, o = .next t → t.PortsLegal)
  case phase => exact fun _ _ h => hc.phaseStep h
  case start =>
    intro v _ _ t h
    unfold execStart at h
    split at h <;> cases h
    · exact hc.kept rfl rfl rfl rfl rfl
    · exact hc.unpresented (hl.request_none ‹_›) rfl rfl rfl
  case reserved =>
    intro v _ _ t h
    cases h
    exact hc.kept rfl rfl rfl rfl rfl
  case wrtsel =>
    intro v _ t h
    cases h
    exact hc.kept rfl rfl rfl rfl rfl
  case ignored =>
    intro idx v _ _ _ t h
    cases h
    exact hc.kept rfl rfl rfl rfl rfl
  case rdrow =>
    intro v _ t h
    unfold execRdrow at h
    split at h <;> cases h
    exact hc.kept rfl rfl rfl rfl rfl
  case rdreg =>
    intro idx v _ _ t h
    unfold execRdreg at h
    split at h <;> cases h
    exact hc.kept rfl rfl rfl rfl rfl
  case srcRead =>
    intro a _ _ t h
    split at h <;> cases h
    exact .of_none hp.unpack (s.consumed.srcRead16_srcPending rfl)
  case srcSeek =>
    intro a _ _ t h
    split at h <;> cases h
    exact .of_none hp.unpack (s.consumed.srcSeek_srcPending rfl)
  case unpack =>
    intro b _ t h
    cases h
    exact ⟨rfl, hp.pending⟩
  case reset =>
    intro _ t h
    cases h
    exact .of_none hp.unpack rfl
  case attach =>
    intro src _ t h
    unfold execAttach at h
    split at h <;> cases h
    exact hc.unpresented (hl.request_none ‹_›) rfl rfl rfl

/-- An input that an input list of attached sources in canonical form offers leaves such a source attached. -/
theorem Source.after_wf {src : Source} {x : Input} (hs : src.wf = true) (hx : x.wf = true) :
    (src.after x).wf = true := by
  cases x with
  | attach new => exact hx
  | sequencer | host | sourcePort | unpackPort | reset => exact hs

/-- Settles O49: the registers after reset are legal, and nothing is read, held or listed. -/
theorem resetMeetsTheInvariant : Obligations.ResetMeetsTheInvariant where
  legal := .reset
  data := .of_unread rfl rfl
  ports := .of_none (by decide) rfl
  source_wf := rfl
  inputs_wf := rfl

/-- Settles O50: a step is a phase step or the effect of the input it takes up, and each part of the invariant
is kept by both. -/
theorem everyStepKeepsTheInvariant : Obligations.EveryStepKeepsTheInvariant := by
  intro s t hinv h
  have hports := hinv.ports.step hinv.legal h
  have hall := List.all_eq_true.1 hinv.inputs_wf
  obtain ⟨hi, hcase⟩ := step_next s t h
  have hinputs : t.inputs.all Input.wf = true := by
    rw [hi]
    exact List.all_eq_true.2 fun x hx => hall x (List.mem_of_mem_tail hx)
  obtain ⟨-, hb, hs⟩ | ⟨x, hx, -, hb, hs, hbusy⟩ := hcase
  · have hdata : (s.withBlock t.block).RunData := hb.runData hinv.legal hinv.data
    exact ⟨hb.legal hinv.legal, hdata.congr rfl hs, hports, hs ▸ hinv.source_wf, hinputs⟩
  · have hmem : x ∈ s.inputs := List.mem_of_mem_head? hx
    exact ⟨hb ▸ hinv.legal.after x, hinv.data.after hinv.legal hb hbusy, hports,
      hs ▸ Source.after_wf hinv.source_wf (hall x hmem), hinputs⟩

end Sys2Proof.Machine
end

section
/-!
What a step can change in the block (R23, R36, R37, R41 (g), R162): REJ, TSEL, the result in DONE, and the
result that the last step of a run publishes.
-/

namespace Sys2Proof.Machine

variable {s t : State} {b c : Block} {src : Source}

/-- REJ after a host access (R23): a write of CMD clears it when it is an accepted START and sets it otherwise. -/
theorem Block.after_host_rej (we : Bool) (idx : BitVec 5) (v : Word) :
    (b.after (.host we idx v)).rej =
      if we = true ∧ idx = 0 then !(v.extractLsb' 0 8 == 0x01#8 && b.state != .busy) else b.rej := by
  by_cases hcmd : we = true ∧ idx = 0
  · by_cases hstart : v.extractLsb' 0 8 = 0x01#8 ∧ b.state ≠ .busy
    · simp [Block.after, hcmd, hstart]
    · simp only [Block.after, hcmd, hstart, and_self, if_true, if_false, Block.reject_rej]
      simpa [imp_iff_not_or] using hstart
  · simp only [Block.after, hcmd, if_false]
    split <;> rfl

/-- TSEL after a host access (R36): only a write of index 7 changes it, START included. -/
theorem Block.after_host_tsel (we : Bool) (idx : BitVec 5) (v : Word) :
    (b.after (.host we idx v)).tsel = if we = true ∧ idx = 7 then v.extractLsb' 0 20 else b.tsel := by
  by_cases hcmd : we = true ∧ idx = 0
  · obtain ⟨rfl, rfl⟩ := hcmd
    rw [if_neg (by decide)]
    simp only [Block.after, and_self, if_true]
    split <;> rfl
  · simp only [Block.after, hcmd, if_false]
    split <;> rfl

/-- Settles O5: a phase step keeps REJ, and of the inputs only a write of CMD and reset change it. -/
theorem rejChangesOnlyByCommandOrReset : Obligations.RejChangesOnlyByCommandOrReset := by
  intro s t h
  obtain ⟨-, ⟨hseq, hb, -⟩ | ⟨x, hx, -, hb, -⟩⟩ := step_next s t h
  · obtain e | e | ⟨op, a, e⟩ := hseq.head <;> rw [e] <;> exact hb.keeps.1
  · rw [hx, hb]
    cases x with
    | host we idx v => exact Block.after_host_rej we idx v
    | reset | sequencer | sourcePort | unpackPort | attach => rfl

/-- Settles O6: a phase step keeps TSEL, and of the inputs only a write of index 7 and reset change it. -/
theorem tselChangesOnlyByWriteOrReset : Obligations.TselChangesOnlyByWriteOrReset := by
  intro s t h
  obtain ⟨-, ⟨hseq, hb, -⟩ | ⟨x, hx, -, hb, -⟩⟩ := step_next s t h
  · obtain e | e | ⟨op, a, e⟩ := hseq.head <;> rw [e] <;> exact hb.keeps.2
  · rw [hx, hb]
    cases x with
    | host we idx v => exact Block.after_host_tsel we idx v
    | reset | sequencer | sourcePort | unpackPort | attach => rfl

/-- In P_DONE the block waits (R104). -/
theorem Block.PhaseStep.of_done (hs : Block.PhaseStep src b c) (hp : b.phase = .done) : c = b := by
  cases hs with
  | wait => rfl
  | header h | magic h | counts h | gfx h | seek h | tile h | decode h => simp [hp] at h

/-- Settles O26: in DONE the sequencer waits, and an input that is neither an accepted START nor reset changes
only REJ and TSEL. -/
theorem doneResultIsImmutable : Obligations.DoneResultIsImmutable := by
  intro s t h _ hphase hstart hreset
  obtain ⟨-, ⟨-, hb, -⟩ | ⟨x, hx, -, hb, -⟩⟩ := step_next s t h
  · rw [hb.of_done hphase]
  · obtain ⟨-, -, v, rfl, hv⟩ | ⟨-, rfl⟩ | e := s.block.after_cases x
    · exact absurd ⟨v, hx, hv⟩ hstart
    · exact absurd hx hreset
    · rw [hb]
      exact e

/-- The two phase steps that end a run in DONE (R160, R162, R184). -/
theorem Block.PhaseStep.to_done (hs : Block.PhaseStep src b c) (hb : b.state = .busy) (hc : c.state = .done) :
    (b.phase = .tread ∧ c = b.complete b.tidx) ∨
      (b.phase = .tdec ∧ b.tidx.toNat < Config.tileStoreSize ∧
        c = Block.advanceTile { b with ts := b.ts.write b.tidx.toNat (entry b.tbuf) }) := by
  cases hs with
  | wait => simp [hb] at hc
  | header h =>
    split at hc
    · simp at hc
    · split at hc <;> simp [hb] at hc
  | magic h => split at hc <;> simp [hb] at hc
  | counts h => simp [hb] at hc
  | gfx h => split at hc <;> simp [hb] at hc
  | seek h => split at hc <;> simp [hb] at hc
  | tile h =>
    refine .inl ⟨h, ?_⟩
    revert hc
    split
    · nofun
    · split
      · nofun
      · split
        · simp [hb]
        · split
          · exact fun _ => rfl
          · nofun
  | decode h ht => exact .inr ⟨h, ht, rfl⟩

/-- An input takes no BUSY block to DONE. -/
theorem Block.after_not_done (hb : b.state = .busy) (x : Input) : (b.after x).state ≠ .done := by
  obtain ⟨-, hn, -⟩ | ⟨e, -⟩ | e := b.after_cases x
  · exact absurd hb hn
  · rw [e]
    nofun
  · rw [e]
    simp [hb]

/-- Settles O25: a run ends in DONE right before the first tile that is missing, or right after the last
declared one is stored; the tiles below TILECOUNT are published in either case. -/
theorem donePublishesTheUnpackedSource : Obligations.DonePublishesTheUnpackedSource := by
  intro s t hinv h hbusy hdone
  obtain ⟨-, ⟨-, hb, -⟩ | ⟨x, -, -, hb, -⟩⟩ := step_next s t h
  · have hpub : t.block.Published s.source t.block.tilecount.toNat := by
      obtain ⟨hp, e⟩ | ⟨hp, ht, e⟩ := hb.to_done hbusy hdone
      · rw [e]
        exact hinv.data.published (by rw [hp]; rfl)
      · obtain ⟨hnext, bank, tib, -, ⟨-, e'⟩ | ⟨-, -, e'⟩⟩ :=
          (hinv.legal.withStored ht (entry s.block.tbuf)).advanceTile_cases hp
        · rw [e, e'] at hdone
          simp [hbusy] at hdone
        · rw [e, e']
          exact hnext ▸ hinv.data.published_stored hinv.legal hp
    exact hpub
  · exact absurd (hb ▸ hdone) (Block.after_not_done hbusy x)

end Sys2Proof.Machine
end

section
/-!
Reads of the register map (R39, R40, R124, R127) and reset (R45, R230).
-/

namespace Sys2Proof.Machine

variable {s t : State}

/-- Reserved indices and CMD read 0 (R40, R105). -/
theorem Block.readReg_reserved (b : Block) {n : BitVec 5}
    (h : n ∈ ([0, 9, 10, 11, 20, 21, 22, 23, 24, 25, 26, 27, 28, 29, 30, 31] : List (BitVec 5))) :
    b.readReg n = some 0 := by
  revert n
  simp [Block.readReg]

/-- RDREG that answers shows the register's value and changes nothing else (R124). -/
theorem execRdreg_next {n : BitVec 5} (h : execRdreg n s = .next t) :
    ∃ v, s.block.readReg n = some v ∧ t = s.showRead v := by
  unfold execRdreg at h
  split at h <;> cases h
  exact ⟨_, ‹_›, rfl⟩

/-- RDROW that answers shows TROW and changes nothing else (R127). -/
theorem execRdrow_next (h : execRdrow s = .next t) : ∃ v, s.block.trow = some v ∧ t = s.showRead v := by
  unfold execRdrow at h
  split at h <;> cases h
  exact ⟨_, ‹_›, rfl⟩

/-- Settles O11: a read only shows a value, 0 at the reserved indices, and an ignored write only ends what the
ports showed. -/
theorem reservedIndicesReadZeroAndIgnoreWrites : Obligations.ReservedIndicesReadZeroAndIgnoreWrites := by
  intro s
  refine ⟨fun n hn => ?_, fun n t h => ?_, fun t h => ?_, fun n v rest hin h0 h7 => ?_⟩
  · exact ⟨s.showRead 0, by simp only [exec, execRdreg, s.block.readReg_reserved hn], rfl⟩
  · obtain ⟨v, -, rfl⟩ := execRdreg_next h
    rfl
  · obtain ⟨v, -, rfl⟩ := execRdrow_next h
    rfl
  · exact ⟨_, (step_cons s rest _ hin).trans (runFetched_write_other _ n v h0 h7), rfl⟩

/-- After reset every register but the palette reads 0 (R45). -/
theorem Block.reset_readReg (n : BitVec 5) (h : n.toNat < 16 ∨ 20 ≤ n.toNat) :
    Block.reset.readReg n = some 0 := by
  revert n
  decide

/-- Settles O48: a step that takes up reset gives the block of R45 and drops the held request. -/
theorem resetGivesEveryRegisterItsValue : Obligations.ResetGivesEveryRegisterItsValue := by
  intro s rest hin
  exact ⟨_, step_cons s rest .reset hin, rfl, rfl, rfl, rfl, rfl, rfl, rfl, rfl, rfl, rfl, rfl, rfl, rfl, rfl,
    rfl, rfl, rfl, Block.reset_readReg, rfl, rfl, rfl, rfl⟩

end Sys2Proof.Machine
end

section
/-!
The seven phase-step operations read neither REJ nor TSEL nor the ports, the inputs or a free value (R23, R36,
R63): from two states that differ in nothing else they answer alike.
-/

namespace Sys2Proof.Machine

/-- The block with REJ and TSEL of another. -/
def Block.withHostOf (b h : Block) : Block := { b with rej := h.rej, tsel := h.tsel }

/-- A meaning whose effect on the block depends on the source and on the block but for REJ and TSEL, and that
keeps these two. -/
def IgnoresHost (f : State → Host.Outcome State Fault Refusal) : Prop :=
  ∀ (s u t : State) (h : Block), u.source = s.source → u.block = s.block.withHostOf h → f s = .next t →
    ∃ w, f u = .next w ∧ w.block = t.block.withHostOf h

variable {src : Source} {acc : Option Access} {a : SrcAddr} {k k' : Nat} (b h : Block)

/-- What HDR_READ makes of the block depends on no free value (R140). -/
theorem Block.takeHeader_withHostOf :
    (b.withHostOf h).takeHeader (src.readResponse acc a k') =
      (b.takeHeader (src.readResponse acc a k)).withHostOf h := by
  rw [Block.takeHeader_readResponse, Block.takeHeader_readResponse]
  split
  · rfl
  · split <;> rfl

/-- What TILE_READ makes of the block depends on no free value (R160). -/
theorem Block.takeTile_withHostOf :
    (b.withHostOf h).takeTile (src.readResponse acc a k') =
      (b.takeTile (src.readResponse acc a k)).withHostOf h := by
  rw [Block.takeTile_readResponse, Block.takeTile_readResponse]
  split
  · rfl
  · split
    · rfl
    · split
      · rfl
      · split <;> rfl

/-- What BANK_SEEK makes of the block (R151). -/
theorem Block.takeSeek_withHostOf (r : SeekResponse) :
    (b.withHostOf h).takeSeek a r = (b.takeSeek a r).withHostOf h := by
  unfold Block.takeSeek
  split <;> rfl

/-- The loop control (R184). -/
theorem Block.advanceTile_withHostOf : (b.withHostOf h).advanceTile = b.advanceTile.withHostOf h := by
  unfold Block.advanceTile
  by_cases hlast : b.tib = 511#9
  · by_cases hend : b.bank.toNat + 1 = b.gbc.toNat <;> simp [Block.withHostOf, hlast, hend, Block.complete]
  · simp [Block.withHostOf, hlast]

/-- HDR_READ (R140). -/
theorem execHdrRead_ignoresHost : IgnoresHost execHdrRead := by
  intro s u t h hs hb hstep
  by_cases hstall : s.source.stall = some .hdr
  · rw [execHdrRead_stalled s hstall] at hstep
    cases hstep
    exact ⟨_, execHdrRead_stalled u (hs ▸ hstall), hb⟩
  · rw [execHdrRead_answered s hstall] at hstep
    cases hstep
    refine ⟨_, execHdrRead_answered u (hs ▸ hstall), ?_⟩
    rw [State.withBlock_block, hs, hb]
    exact Block.takeHeader_withHostOf s.block h

/-- MAGIC_CHECK (R141). -/
theorem execMagicCheck_ignoresHost : IgnoresHost execMagicCheck := by
  intro s u t h _ hb hstep
  have hhdr : u.block.hdr = s.block.hdr := by rw [hb]; rfl
  unfold execMagicCheck at hstep ⊢
  rw [hhdr, hb]
  split at hstep <;> cases hstep
  · exact ⟨_, if_pos ‹_›, rfl⟩
  · exact ⟨_, if_neg ‹_›, rfl⟩

/-- COUNT_LATCH (R142). -/
theorem execCountLatch_ignoresHost : IgnoresHost execCountLatch := by
  intro s u t h _ hb hstep
  cases hstep
  refine ⟨_, rfl, ?_⟩
  rw [State.withBlock_block, hb]
  rfl

/-- GFX_CHECK (R143). -/
theorem execGfxCheck_ignoresHost : IgnoresHost execGfxCheck := by
  intro s u t h _ hb hstep
  have hgbc : u.block.gbc = s.block.gbc := by rw [hb]; rfl
  unfold execGfxCheck at hstep ⊢
  rw [hgbc, hb]
  split at hstep <;> cases hstep
  · exact ⟨_, if_pos ‹_›, rfl⟩
  · exact ⟨_, if_neg ‹_›, rfl⟩

/-- BANK_SEEK (R151). -/
theorem execBankSeek_ignoresHost : IgnoresHost execBankSeek := by
  intro s u t h hs hb hstep
  by_cases hstall : s.source.stall = some .seek
  · rw [execBankSeek_stalled s hstall] at hstep
    cases hstep
    exact ⟨_, execBankSeek_stalled u (hs ▸ hstall), hb⟩
  · rw [execBankSeek_answered s hstall] at hstep
    cases hstep
    refine ⟨_, execBankSeek_answered u (hs ▸ hstall), ?_⟩
    rw [State.withBlock_block, hs, hb]
    exact Block.takeSeek_withHostOf s.block h _

/-- TILE_READ (R160). -/
theorem execTileRead_ignoresHost : IgnoresHost execTileRead := by
  intro s u t h hs hb hstep
  have htidx : u.block.tidx = s.block.tidx := by rw [hb]; rfl
  by_cases hstall : s.source.stall = some (.tile s.block.tidx.toNat)
  · rw [execTileRead_stalled s hstall] at hstep
    cases hstep
    exact ⟨_, execTileRead_stalled u (by rw [hs, htidx, hstall]), hb⟩
  · rw [execTileRead_answered s hstall] at hstep
    cases hstep
    refine ⟨_, execTileRead_answered u (by rwa [hs, htidx]), ?_⟩
    rw [State.withBlock_block, hs, hb]
    exact Block.takeTile_withHostOf s.block h

/-- TILE_DECODE (R184); it stops in both states where the entry does not exist. -/
theorem execTileDecode_ignoresHost : IgnoresHost execTileDecode := by
  intro s u t h _ hb hstep
  by_cases ht : s.block.tidx.toNat < Config.tileStoreSize
  · rw [execTileDecode_exists s ht] at hstep
    cases hstep
    refine ⟨_, execTileDecode_exists u (by rw [hb]; exact ht), ?_⟩
    rw [State.withBlock_block, hb]
    exact Block.advanceTile_withHostOf
      { s.block with ts := s.block.ts.write s.block.tidx.toNat (entry s.block.tbuf) } h
  · simp [execTileDecode, Block.storeTile, ht] at hstep

/-- Settles O46: each of the seven operations answers alike from both states. -/
theorem phaseStepsIgnoreHostRegistersAndFreeValues :
    Obligations.PhaseStepsIgnoreHostRegistersAndFreeValues := by
  intro i s u t hi hs hb hstep
  have key : IgnoresHost (exec i) := by
    simp only [List.mem_cons, List.not_mem_nil, or_false] at hi
    obtain rfl | rfl | rfl | rfl | rfl | rfl | rfl := hi
    · exact execHdrRead_ignoresHost
    · exact execMagicCheck_ignoresHost
    · exact execCountLatch_ignoresHost
    · exact execGfxCheck_ignoresHost
    · exact execBankSeek_ignoresHost
    · exact execTileRead_ignoresHost
    · exact execTileDecode_ignoresHost
  exact key s u t u.block hs hb hstep

end Sys2Proof.Machine
end

section
/-!
The source port (spec/20_memory.md): the operation that a word selects (R103), the request that a phase presents
(R66), what an answered transaction shows (R63, R65), and what a step does at the port (R67, R236).
-/

namespace Sys2Proof.Machine

variable {s t : State} {b : Block} {acc : Access} {q : SrcRequest} {a : SrcAddr} {i : Instr}

/-- A word that decodes runs its operation (R103). -/
theorem runFetched_decoded {w : PortWord} (h : decode w = .ok i) : runFetched (.word w) s = exec i s := by
  simp only [runFetched, h]

/-- The step of a phase is the operation that its code selects (R104). -/
theorem phaseStep_eq_exec (h : decode (.phase s.block.phase.code) = .ok i) : phaseStep s = exec i s :=
  (runFetched_phaseStep s s rfl).symm.trans (runFetched_decoded h)

/-- Settles O55: both what PHASE selects and what the oldest input presents are run by their decoding. -/
theorem stepRunsTheDecodedOperation : Obligations.StepRunsTheDecodedOperation := by
  refine ⟨fun s i hin h => ?_, fun s x rest w i hin hx h => ?_⟩
  · rw [step_phaseStep s hin, phaseStep_eq_exec h]
  · rw [step_cons s rest x hin, hx, runFetched_decoded h]

/-- Settles O36: a read that the source answers gives the response of R63 and only shows it. -/
theorem readResponseIsTheSources : Obligations.ReadResponseIsTheSources := by
  intro s acc a h
  exact ⟨_, _, s.srcRead16_answered acc a h, rfl, s.source.readResponse_answers acc a s.freeNext⟩

/-- The three phases that present a request, each with its access (R66, R140, R151, R160). -/
theorem Block.request?_cases (h : b.request? = some (acc, q)) :
    (b.phase = .hdr ∧ acc = .hdr ∧ q = { op := .read, addr := b.pos }) ∨
      (b.phase = .tread ∧ acc = .tile b.tidx.toNat ∧ q = { op := .read, addr := b.pos }) ∨
      (b.phase = .seek ∧ acc = .seek ∧ q = { op := .seek, addr := gfxBase b.pbc }) := by
  unfold Block.request? at h
  split at h <;> cases h
  · exact .inl ⟨‹_›, rfl, rfl⟩
  · exact .inr (.inr ⟨‹_›, rfl, rfl⟩)
  · exact .inr (.inl ⟨‹_›, rfl, rfl⟩)

/-- What an answered read shows, and that it keeps the surroundings (R63, R236). -/
theorem State.srcRead16_shows {x : Option Access} (h : s.source.stalls x = false) :
    s.SameSurroundings (s.srcRead16 x a).1 ∧ (s.srcRead16 x a).1.ports.hRdata = none ∧
      (s.srcRead16 x a).1.ports.srcPending = none ∧
      (s.srcRead16 x a).1.ports.srcDone =
        some ({ op := .read, addr := a }, .read (s.source.readResponse x a s.freeNext)) := by
  rw [s.srcRead16_answered x a h]
  exact ⟨⟨rfl, rfl, rfl, rfl⟩, rfl, rfl, rfl⟩

/-- What an answered seek shows, and that it keeps the surroundings and uses no free value (R65, R236). -/
theorem State.srcSeek_shows {x : Option Access} (h : s.source.stalls x = false) :
    s.SameSurroundings (s.srcSeek x a).1 ∧ (s.srcSeek x a).1.ports.hRdata = none ∧
      (s.srcSeek x a).1.ports.srcPending = none ∧ (s.srcSeek x a).1.freeNext = s.freeNext ∧
      (s.srcSeek x a).1.ports.srcDone =
        some ({ op := .seek, addr := a }, .seek (s.source.seekResponse x)) := by
  rw [s.srcSeek_answered x a h]
  exact ⟨⟨rfl, rfl, rfl, rfl⟩, rfl, rfl, rfl, rfl⟩

/-- SRC_READ of the read that the phase presents, answered: the phase takes the response (R236). -/
theorem execSrcRead_answered (hacc : s.block.accessOf { op := .read, addr := a } = some acc)
    (h : s.source.stalls (some acc) = false) :
    execSrcRead a s = .next ((s.srcRead16 (some acc) a).1.withBlock
      (s.block.takeRead acc (s.source.readResponse (some acc) a s.freeNext))) := by
  simp only [execSrcRead, hacc, s.srcRead16_answered (some acc) a h]

/-- SRC_SEEK of the seek that P_SEEK presents, answered: BANK_SEEK takes the response (R236). -/
theorem execSrcSeek_answered (hacc : s.block.accessOf { op := .seek, addr := a } = some acc)
    (h : s.source.stalls (some acc) = false) :
    execSrcSeek a s = .next ((s.srcSeek (some acc) a).1.withBlock
      (s.block.takeSeek a (s.source.seekResponse (some acc)))) := by
  simp only [execSrcSeek, hacc, s.srcSeek_answered (some acc) a h]

/-- The port is in use during a run and while a request is held (R236, R241). -/
theorem State.sourceInUse_true : s.sourceInUse = true ↔ s.block.state = .busy ∨ s.ports.srcPending ≠ none := by
  rw [← Bool.not_eq_false, s.sourceInUse_false]
  tauto

/-- Settles O37: the phase that presents the read runs its step; a read that none presents is answered alone
while the port is free, and else stops. -/
theorem srcReadShowsItsTransaction : Obligations.SrcReadShowsItsTransaction := by
  intro a s
  refine ⟨fun hacc hbusy hpend => ?_, fun acc hacc => ?_, fun acc hacc hstall => ?_, fun hacc huse => ?_⟩
  · obtain ⟨hsame, hread, hfree, hdone⟩ := s.srcRead16_shows (x := none) (a := a) rfl
    obtain ⟨hblock, -⟩ := s.srcRead16_frame none a
    have hexec := execSrcRead_lone s a hacc
    rw [s.sourceInUse_false.2 ⟨hbusy, hpend⟩] at hexec
    exact ⟨_, _, hexec, hblock, hsame, hread, hfree, hdone, s.source.readResponse_answers none a s.freeNext⟩
  · have hstep : exec (.srcRead a) s = phaseStep s := execSrcRead_presented s a (by rw [hacc]; rfl)
    obtain ⟨hp, rfl, hq⟩ | ⟨hp, rfl, hq⟩ | ⟨-, -, hq⟩ := Block.request?_cases (s.block.accessOf_some _ acc hacc)
    · cases hq
      exact .inl ⟨hp, rfl, rfl, hstep.trans (phaseStep_eq_exec (by rw [hp]; rfl))⟩
    · cases hq
      exact .inr ⟨hp, rfl, rfl, hstep.trans (phaseStep_eq_exec (by rw [hp]; rfl))⟩
    · cases hq
  · obtain ⟨hsame, hread, hfree, hdone⟩ := s.srcRead16_shows (a := a) hstall
    exact ⟨_, _, execSrcRead_answered hacc hstall, hsame, hread, hfree, hdone,
      s.source.readResponse_answers (some acc) a s.freeNext⟩
  · exact (execSrcRead_lone s a hacc).trans (if_pos (State.sourceInUse_true.2 huse))

/-- Settles O38: P_SEEK runs the seek that it presents; a seek that it does not present is answered alone while
the port is free, and else stops. -/
theorem srcSeekShowsItsTransaction : Obligations.SrcSeekShowsItsTransaction := by
  intro a s
  refine ⟨fun hacc hbusy hpend => ?_, fun acc hacc => ?_, fun acc hacc hstall => ?_, fun hacc huse => ?_⟩
  · obtain ⟨hsame, hread, hfree, hnext, hdone⟩ := s.srcSeek_shows (x := none) (a := a) rfl
    obtain ⟨hblock, -⟩ := s.srcSeek_frame none a
    have hexec := execSrcSeek_lone s a hacc
    rw [s.sourceInUse_false.2 ⟨hbusy, hpend⟩] at hexec
    exact ⟨_, _, hexec, hblock, hsame, hread, hfree, hnext, hdone, s.source.seekResponse_answers none⟩
  · have hstep : exec (.srcSeek a) s = phaseStep s := execSrcSeek_presented s a (by rw [hacc]; rfl)
    obtain ⟨-, -, hq⟩ | ⟨-, -, hq⟩ | ⟨hp, rfl, hq⟩ := Block.request?_cases (s.block.accessOf_some _ acc hacc)
    · cases hq
    · cases hq
    · cases hq
      exact ⟨hp, rfl, rfl, hstep.trans (phaseStep_eq_exec (by rw [hp]; rfl))⟩
  · obtain ⟨hsame, hread, hfree, hnext, hdone⟩ := s.srcSeek_shows (a := a) hstall
    exact ⟨_, _, execSrcSeek_answered hacc hstall, hsame, hread, hfree, hnext, hdone,
      s.source.seekResponse_answers (some acc)⟩
  · exact (execSrcSeek_lone s a hacc).trans (if_pos (State.sourceInUse_true.2 huse))

/-- What a step does at the source port (R67, R232, R236): a phase step's own transaction or wait; nothing, with the
held request kept; reset, which drops it; or a transaction that no phase presents, while the port is free. -/
inductive State.PortStep (s t : State) : Prop
  | phase (hseq : s.SequencerNext) (h : phaseStep s.consumed = .next t)
  | kept (hdone : t.ports.srcDone = none) (hpend : t.ports.srcPending = s.ports.srcPending)
  | reset (hx : s.inputs.head? = some .reset) (hdone : t.ports.srcDone = none)
  | lone (hfree : s.sourceInUse = false) (op : Bool) (a : SrcAddr)
      (hx : s.inputs.head? = some (.sourcePort op a))

/-- Every step that answers is one of the four. -/
theorem step_portStep (h : step s = .next t) : s.PortStep t := by
  revert t
  apply step_cases s (fun o => ∀ {t}, o = .next t → s.PortStep t)
  case phase => exact fun hseq _ h => .phase hseq h
  case start =>
    intro v _ _ t h
    unfold execStart at h
    split at h <;> cases h <;> exact .kept rfl rfl
  case reserved =>
    intro v _ _ t h
    cases h
    exact .kept rfl rfl
  case wrtsel =>
    intro v _ t h
    cases h
    exact .kept rfl rfl
  case ignored =>
    intro idx v _ _ _ t h
    cases h
    exact .kept rfl rfl
  case rdrow =>
    intro v _ t h
    obtain ⟨w, -, rfl⟩ := execRdrow_next h
    exact .kept rfl rfl
  case rdreg =>
    intro idx v _ _ t h
    obtain ⟨w, -, rfl⟩ := execRdreg_next h
    exact .kept rfl rfl
  case srcRead =>
    intro a hx _ t h
    split at h <;> cases h
    exact .lone (Bool.eq_false_iff.2 ‹_›) _ a hx
  case srcSeek =>
    intro a hx _ t h
    split at h <;> cases h
    exact .lone (Bool.eq_false_iff.2 ‹_›) _ a hx
  case unpack =>
    intro b _ t h
    cases h
    exact .kept rfl rfl
  case reset =>
    intro hx t h
    cases h
    exact .reset hx rfl
  case attach =>
    intro src _ t h
    unfold execAttach at h
    split at h <;> cases h
    exact .kept rfl rfl

/-- The transaction that a phase step completes is the request of its phase (R66, R236). -/
theorem phaseStep_srcDone {r : SrcAnswer} (h : phaseStep s = .next t) (hd : t.ports.srcDone = some (q, r)) :
    ∃ acc, s.block.request? = some (acc, q) := by
  unfold phaseStep at h
  split at h <;> rename_i hp
  · cases h
    cases hd
  · by_cases hs : s.source.stall = some .hdr
    · rw [execHdrRead_stalled s hs] at h
      cases h
      cases hd
    · rw [execHdrRead_answered s hs] at h
      cases h
      obtain ⟨-, -, -, e⟩ := s.srcRead16_shows (a := s.block.pos) ((s.source.stalls_some_false .hdr).2 hs)
      cases e.symm.trans hd
      exact ⟨.hdr, by simp only [Block.request?, hp]⟩
  · unfold execMagicCheck at h
    split at h <;> cases h <;> cases hd
  · cases h
    cases hd
  · unfold execGfxCheck at h
    split at h <;> cases h <;> cases hd
  · by_cases hs : s.source.stall = some .seek
    · rw [execBankSeek_stalled s hs] at h
      cases h
      cases hd
    · rw [execBankSeek_answered s hs] at h
      cases h
      obtain ⟨-, -, -, -, e⟩ :=
        s.srcSeek_shows (a := gfxBase s.block.pbc) ((s.source.stalls_some_false .seek).2 hs)
      cases e.symm.trans hd
      exact ⟨.seek, by simp only [Block.request?, hp]⟩
  · by_cases hs : s.source.stall = some (.tile s.block.tidx.toNat)
    · rw [execTileRead_stalled s hs] at h
      cases h
      cases hd
    · rw [execTileRead_answered s hs] at h
      cases h
      obtain ⟨-, -, -, e⟩ := s.srcRead16_shows (a := s.block.pos) ((s.source.stalls_some_false (.tile _)).2 hs)
      cases e.symm.trans hd
      exact ⟨.tile s.block.tidx.toNat, by simp only [Block.request?, hp]⟩
  · unfold execTileDecode at h
    split at h <;> cases h
    cases hd
  · cases h
    cases hd
  · cases h
    cases hd

/-- A transaction that a step of a run completes is the sequencer's, and the one its phase presents (R67). -/
theorem step_srcDone {r : SrcAnswer} (hb : s.block.state = .busy) (h : step s = .next t)
    (hd : t.ports.srcDone = some (q, r)) : s.SequencerNext ∧ ∃ acc, s.block.request? = some (acc, q) := by
  cases step_portStep h with
  | phase hseq hphase => exact ⟨hseq, phaseStep_srcDone (s := s.consumed) hphase hd⟩
  | kept hdone | reset _ hdone => cases hdone.symm.trans hd
  | lone hfree => exact absurd hb (s.sourceInUse_false.1 hfree).1

/-- Settles O40: a transaction is the one its phase presents, and the invariant says where POS and the region lie
in each of the three phases. -/
theorem transactionsKeepTheDiscipline : Obligations.TransactionsKeepTheDiscipline := by
  intro s t q r hinv hb h hd
  obtain ⟨hseq, acc, hreq⟩ := step_srcDone hb h hd
  have hl := hinv.legal
  refine ⟨hseq, ⟨acc, hreq⟩, ?_⟩
  obtain ⟨hp, -, rfl⟩ | ⟨hp, -, rfl⟩ | ⟨hp, -, rfl⟩ := Block.request?_cases hreq
  · exact ⟨hl.pos_aligned, fun _ => .inl ⟨hp, hl.pos_hdr hp⟩, nofun⟩
  · have hpos : s.block.pos.toNat = regionBase s.block.pbc + 16 * s.block.tidx.toNat := hl.pos_tread hp
    obtain ⟨-, -, hidx⟩ := hl.loop_bound (by rw [hp]; rfl)
    exact ⟨hl.pos_aligned, fun _ => .inr ⟨hp, hpos, by simp only; omega⟩, nofun⟩
  · have haddr : (gfxBase s.block.pbc).toNat = regionBase s.block.pbc := gfxBase_toNat s.block.pbc
    have hpos : s.block.pos.toNat = 16 := by
      rw [hl.pos_afterHeader (by rw [hp]; rfl)]
      rfl
    unfold regionBase at haddr
    exact ⟨by simp only; omega, nofun, fun _ => ⟨hp, haddr, by simp only; omega⟩⟩

/-- While a host access is next the sequencer is not. -/
theorem State.not_sequencerNext_of_host {we : Bool} {idx : BitVec 5} {v : Word}
    (hx : s.inputs.head? = some (.host we idx v)) : ¬s.SequencerNext := by
  intro hseq
  obtain e | e | ⟨op, a, e⟩ := hseq.head <;> cases e.symm.trans hx

/-- Settles O45: a host access of a BUSY block writes only REJ and TSEL, for no START is accepted, and it makes
no transaction. -/
theorem hostAccessLeavesTheRunUndisturbed : Obligations.HostAccessLeavesTheRunUndisturbed := by
  intro s t we idx v hx hb h
  have hseq := State.not_sequencerNext_of_host hx
  obtain ⟨-, ⟨hn, -⟩ | ⟨x, hx', -, hblock, -, hsource⟩⟩ := step_next s t h
  · exact absurd hn hseq
  · cases hx.symm.trans hx'
    have hpend : t.ports.srcPending = s.ports.srcPending := by
      cases step_portStep h with
      | phase hn => exact absurd hn hseq
      | kept _ hpend => exact hpend
      | reset e | lone _ _ _ e => cases e.symm.trans hx
    refine ⟨?_, hsource hb, hpend⟩
    obtain ⟨-, hn, -⟩ | ⟨-, e⟩ | e := s.block.after_cases (.host we idx v)
    · exact absurd hb hn
    · cases e
    · rw [hblock]
      exact e

end Sys2Proof.Machine
end

section
/-!
The words of the operations (spec/30_encoding.md R103, R105): each encoded word as the pins or PHASE form it, and
the two round trips between words and operations.
-/

namespace Sys2Proof

open Machine (hostWord sourceWord)

/-- START is a host write of CMD with the code `0x01` (R97). -/
theorem encode_start (x : BitVec 24) : encode (.start x) = hostWord true 0 (x ++ 0x01#8) :=
  congrArg PortWord.hostW (BitVec.append_assoc (x₁ := 1#1 ++ 0#5) (x₂ := x) (x₃ := 0x01#8))

/-- WRTSEL is a host write of TSEL (R126). -/
theorem encode_wrtsel (x : BitVec 12) (row : BitVec 3) (tile : TileIdx) :
    encode (.wrtsel x row tile) = hostWord true 7 (x ++ row ++ tile) := by
  have hrow : (1#1 ++ 7#5 ++ x ++ row : BitVec 21) = 1#1 ++ 7#5 ++ (x ++ row) :=
    BitVec.append_assoc (x₁ := 1#1 ++ 7#5)
  have htile : (1#1 ++ 7#5 ++ (x ++ row) ++ tile : BitVec 38) = 1#1 ++ 7#5 ++ (x ++ row ++ tile) :=
    BitVec.append_assoc (x₁ := 1#1 ++ 7#5)
  exact congrArg PortWord.hostW ((congrArg (· ++ tile) hrow).trans htile)

/-- RDREG is a host read of its index, whatever `h_wdata` (R103). -/
theorem encode_rdreg (n : BitVec 5) (v : Word) : encode (.rdreg n) = hostWord false n v := rfl

/-- RDROW is the host read of index 8 (R127). -/
theorem encode_rdrow (v : Word) : encode .rdrow = hostWord false 8 v := rfl

/-- SRC_READ and SRC_SEEK are the two values of `src_op` (R101). -/
theorem encode_source (op : Bool) (a : SrcAddr) :
    encode (if op then .srcSeek a else .srcRead a) = sourceWord op a := by
  cases op <;> rfl

/-- START's word decodes to START, its ignored bits kept. -/
theorem decode_encode_start (x : BitVec 24) : decode (encode (.start x)) = .ok (.start x) := by
  have hcode : (x ++ 0x01#8 : Word).extractLsb' 0 8 = 0x01#8 :=
    BitVec.extractLsb'_append_eq_right
  have hrest : (x ++ 0x01#8 : Word).extractLsb' 8 24 = x := BitVec.extractLsb'_append_eq_left
  rw [encode_start, decode_write_cmd, if_pos hcode, hrest]

/-- WRTSEL's word decodes to WRTSEL, its ignored bits kept. -/
theorem decode_encode_wrtsel (x : BitVec 12) (row : BitVec 3) (tile : TileIdx) :
    decode (encode (.wrtsel x row tile)) = .ok (.wrtsel x row tile) := by
  have hx : (x ++ row ++ tile : Word).extractLsb' 20 12 = x := by
    rw [extract_high _ _ _ _ (by decide)]
    exact BitVec.extractLsb'_append_eq_left
  have hrow : (x ++ row ++ tile : Word).extractLsb' 17 3 = row := by
    rw [extract_high _ _ _ _ (by decide)]
    exact BitVec.extractLsb'_append_eq_right
  have htile : (x ++ row ++ tile : Word).extractLsb' 0 17 = tile :=
    BitVec.extractLsb'_append_eq_right
  rw [encode_wrtsel, decode_write_tsel, hx, hrow, htile]

/-- Settles O53: the operands of the host and of the source port are fields of their words; a PHASE word has no
operand, and UNPACK's word is its operand. -/
theorem decodeOfEncodeIsTheOperation : Obligations.DecodeOfEncodeIsTheOperation := by
  intro i hi
  cases i with
  | start x => exact decode_encode_start x
  | rdreg n =>
    have hn : n ≠ 8#5 := by simpa [Instr.wellFormed] using hi
    rw [encode_rdreg n 0, decode_read, if_neg hn]
  | wrtsel x row tile => exact decode_encode_wrtsel x row tile
  | rdrow => exact decode_read 8 0
  | srcRead a => exact decode_source false a
  | srcSeek a => exact decode_source true a
  | hdrRead | magicCheck | countLatch | gfxCheck | bankSeek | tileRead | tileDecode | unpack => rfl

/-- A HOSTW word is what the pins form of a write, or it is of the wrong direction (R103). -/
theorem hostW_cases (w : BitVec 38) :
    PortWord.hostW w = hostWord true (w.extractLsb' 32 5) (w.extractLsb' 0 32) ∨
      decode (.hostW w) = .error .wrongDirection := by
  by_cases hwe : w.extractLsb' 37 1 = 1#1
  · have hparts : (w.extractLsb' 37 1 ++ w.extractLsb' 32 5 ++ w.extractLsb' 0 32 : BitVec 38) = w := by
      rw [extract_append w 32 5 1]
      exact BitVec.extractLsb'_append_extractLsb'
    rw [hwe] at hparts
    exact .inl (congrArg PortWord.hostW hparts.symm)
  · exact .inr (if_neg hwe)

/-- A HOSTR word is what the pins form of a read, or it is of the wrong direction (R103). -/
theorem hostR_cases (w : BitVec 6) :
    PortWord.hostR w = hostWord false (w.extractLsb' 0 5) 0 ∨
      decode (.hostR w) = .error .wrongDirection := by
  by_cases hwe : w.extractLsb' 5 1 = 0#1
  · have hparts : (w.extractLsb' 5 1 ++ w.extractLsb' 0 5 : BitVec 6) = w :=
      BitVec.extractLsb'_append_extractLsb'
    rw [hwe] at hparts
    exact .inl (congrArg PortWord.hostR hparts.symm)
  · exact .inr (if_neg hwe)

/-- A SRCREQ word is what the source port forms of its two fields (R101). -/
theorem srcReq_eq_sourceWord (w : BitVec 24) :
    PortWord.srcReq w = sourceWord (w.getLsbD 23) (w.extractLsb' 0 23) := by
  have hparts : (w.extractLsb' 23 1 ++ w.extractLsb' 0 23 : BitVec 24) = w :=
    BitVec.extractLsb'_append_extractLsb'
  rw [extract_one] at hparts
  exact congrArg PortWord.srcReq hparts.symm

variable {i : Instr}

/-- A host write that decodes is the word of its operation. -/
theorem encode_of_decode_write {idx : BitVec 5} {v : Word} (h : decode (hostWord true idx v) = .ok i) :
    i.wellFormed = true ∧ encode i = hostWord true idx v := by
  by_cases h0 : idx = 0
  · subst h0
    rw [decode_write_cmd] at h
    split at h <;> cases h
    rename_i hcode
    have hv : (v.extractLsb' 8 24 ++ v.extractLsb' 0 8 : Word) = v :=
      BitVec.extractLsb'_append_extractLsb'
    rw [hcode] at hv
    exact ⟨rfl, by rw [encode_start, hv]⟩
  · by_cases h7 : idx = 7
    · subst h7
      rw [decode_write_tsel] at h
      cases h
      have hv : (v.extractLsb' 20 12 ++ v.extractLsb' 17 3 ++ v.extractLsb' 0 17 : Word) = v := by
        rw [extract_append v 17 3 12]
        exact BitVec.extractLsb'_append_extractLsb'
      exact ⟨rfl, by rw [encode_wrtsel, hv]⟩
    · rw [decode_write_other idx v h0 h7] at h
      cases h

/-- A host read that decodes is the word of its operation; index 8 is RDROW's, so RDREG's is another. -/
theorem encode_of_decode_read {idx : BitVec 5} {v : Word} (h : decode (hostWord false idx v) = .ok i) :
    i.wellFormed = true ∧ encode i = hostWord false idx v := by
  rw [decode_read] at h
  split at h <;> cases h
  · subst idx
    exact ⟨rfl, encode_rdrow v⟩
  · exact ⟨by simpa [Instr.wellFormed], encode_rdreg idx v⟩

/-- A PHASE code that decodes is the word of its phase step (R104). -/
theorem encode_of_decode_phase {w : BitVec 4} (h : decode (.phase w) = .ok i) :
    i.wellFormed = true ∧ encode i = .phase w := by
  simp only [decode, decodePhase] at h
  split at h <;> cases h <;> rename_i hw <;>
    exact ⟨rfl, congrArg PortWord.phase (BitVec.eq_of_toNat_eq hw.symm)⟩

/-- A source-port word is the word of its operation. -/
theorem encode_of_decode_source {op : Bool} {a : SrcAddr} (h : decode (sourceWord op a) = .ok i) :
    i.wellFormed = true ∧ encode i = sourceWord op a := by
  rw [decode_source] at h
  cases h
  exact ⟨by cases op <;> rfl, encode_source op a⟩

/-- Settles O54: a word is what its port or PHASE forms, or of the wrong direction. -/
theorem encodeOfDecodeIsTheWord : Obligations.EncodeOfDecodeIsTheWord := by
  intro w i h
  cases w with
  | hostW w =>
    obtain e | e := hostW_cases w
    · rw [e] at h ⊢
      exact encode_of_decode_write h
    · cases e.symm.trans h
  | hostR w =>
    obtain e | e := hostR_cases w
    · rw [e] at h ⊢
      exact encode_of_decode_read h
    · cases e.symm.trans h
  | phase w => exact encode_of_decode_phase h
  | srcReq w =>
    rw [srcReq_eq_sourceWord] at h ⊢
    exact encode_of_decode_source h
  | comb w =>
    cases h
    exact ⟨rfl, rfl⟩

/-- Settles O56: each row is a fixed word, which the decoder is run on. -/
theorem tableWordsDecodeToTheirRows : Obligations.TableWordsDecodeToTheirRows := by
  unfold Obligations.TableWordsDecodeToTheirRows
  decide

end Sys2Proof
end

section
/-!
The formats of the registers that the host reads (spec/30_encoding.md R98 to R100) and the edges of the
control-transfer table (R104).
-/

namespace Sys2Proof.Machine

variable {s t : State} (b : Block)

/-- A read of a register that has a value shows it (R124). -/
theorem exec_rdreg_of_readReg {n : BitVec 5} {v : Word} (h : s.block.readReg n = some v) :
    exec (.rdreg n) s = .next (s.showRead v) := by
  simp only [exec, execRdreg, h]

/-- A bit is its field of one bit. -/
theorem getLsbD_of_extract_one {w n : Nat} {x : BitVec w} {r : Bool}
    (h : x.extractLsb' n 1 = BitVec.ofBool r) : x.getLsbD n = r := by
  rw [extract_one] at h
  exact BitVec.ofBool_eq_iff_eq.1 h

/-- The fields of STATUS (R98). -/
theorem Block.statusWord_fields :
    b.statusWord.extractLsb' 0 2 = b.state.code ∧ b.statusWord.getLsbD 2 = b.rej ∧
      b.statusWord.getLsbD 3 = false ∧ b.statusWord.extractLsb' 4 4 = b.phase.code ∧
      b.statusWord.extractLsb' 8 24 = 0 := by
  unfold Block.statusWord
  refine ⟨?_, ?_, ?_, ?_, ?_⟩
  · exact BitVec.extractLsb'_append_eq_right
  · refine getLsbD_of_extract_one ?_
    rw [extract_high _ _ _ _ (by decide)]
    exact BitVec.extractLsb'_append_eq_right
  · refine getLsbD_of_extract_one ?_
    iterate 2 rw [extract_high _ _ _ _ (by decide)]
    exact BitVec.extractLsb'_append_eq_right
  · iterate 3 rw [extract_high _ _ _ _ (by decide)]
    exact BitVec.extractLsb'_append_eq_right
  · iterate 3 rw [extract_high _ _ _ _ (by decide)]
    exact BitVec.extractLsb'_append_eq_left

/-- Settles O8: STATUS is its fields one after the other, and STATE is the function of PHASE that R22 says. -/
theorem statusReadsStateRejAndPhase : Obligations.StatusReadsStateRejAndPhase := by
  intro s
  obtain ⟨hstate, hrej, hzero, hphase, hhigh⟩ := s.block.statusWord_fields
  refine ⟨_, s.block.statusWord, exec_rdreg_of_readReg rfl, rfl, hstate, hrej, hzero, hphase, hhigh, ?_⟩
  intro hinv
  rw [Block.statusWord, hinv.legal.state_of_phase]
  cases s.block.phase <;> cases s.block.rej <;> decide

/-- The fields of ERR (R99). -/
theorem Block.errWord_fields :
    b.errWord.extractLsb' 0 3 = b.ecode.code ∧ b.errWord.getLsbD 3 = false ∧
      b.errWord.extractLsb' 4 2 = b.ephase.code ∧ b.errWord.extractLsb' 6 26 = 0 := by
  unfold Block.errWord
  refine ⟨?_, ?_, ?_, ?_⟩
  · exact BitVec.extractLsb'_append_eq_right
  · refine getLsbD_of_extract_one ?_
    rw [extract_high _ _ _ _ (by decide)]
    exact BitVec.extractLsb'_append_eq_right
  · iterate 2 rw [extract_high _ _ _ _ (by decide)]
    exact BitVec.extractLsb'_append_eq_right
  · iterate 2 rw [extract_high _ _ _ _ (by decide)]
    exact BitVec.extractLsb'_append_eq_left

/-- Settles O9: ERR is its fields one after the other, and the invariant allows eight pairs of them. -/
theorem errReadsKindAndPhase : Obligations.ErrReadsKindAndPhase := by
  intro s
  obtain ⟨hkind, hzero, hphase, hhigh⟩ := s.block.errWord_fields
  refine ⟨_, s.block.errWord, exec_rdreg_of_readReg rfl, rfl, hkind, hzero, hphase, hhigh, ?_⟩
  intro hinv
  have hpair := hinv.legal.errors_legal
  unfold Block.errWord
  revert hpair
  cases s.block.ecode <;> cases s.block.ephase <;> decide

/-- A zero-extended register reads its value in the low bits and 0 above. -/
theorem setWidth_fields {w : Nat} (x : BitVec w) (n : Nat) :
    (x.setWidth (w + n)).extractLsb' 0 w = x ∧ (x.setWidth (w + n)).extractLsb' w n = 0 := by
  constructor
  · rw [extract_setWidth_low _ _ _ _ (by omega), extract_all]
  · rw [extract_setWidth_low _ _ _ _ (by omega), extract_beyond _ _ _ (by omega)]
    rfl

/-- BANKS: PBC and GBC, 0 above (R100). -/
theorem banks_fields (p g : Byte) :
    (0#16 ++ g ++ p : Word).extractLsb' 0 8 = p ∧ (0#16 ++ g ++ p : Word).extractLsb' 8 8 = g ∧
      (0#16 ++ g ++ p : Word).extractLsb' 16 16 = 0 := by
  refine ⟨?_, ?_, ?_⟩
  · exact BitVec.extractLsb'_append_eq_right
  · rw [extract_high _ _ _ _ (by decide)]
    exact BitVec.extractLsb'_append_eq_right
  · rw [extract_high _ _ _ _ (by decide)]
    exact BitVec.extractLsb'_append_eq_left

/-- TSEL: TILE and ROW, 0 above (R36, R100). -/
theorem Block.tsel_fields :
    (b.tsel.setWidth 32).extractLsb' 0 17 = b.selTile ∧ (b.tsel.setWidth 32).extractLsb' 17 3 = b.selRow ∧
      (b.tsel.setWidth 32).extractLsb' 20 12 = 0 :=
  ⟨extract_setWidth_low _ _ _ _ (by decide), extract_setWidth_low _ _ _ _ (by decide),
    (setWidth_fields b.tsel 12).2⟩

/-- TROW that answers is 0 where its gate is closed, else the selected row word (R127). -/
theorem Block.trow_cases {v : Word} (h : b.trow = some v) :
    (¬(b.state = .done ∧ b.selTile < b.tilecount) ∧ v = 0) ∨
      v = ((b.ts.read b.selTile.toNat).extractLsb' (16 * b.selRow.toNat) 16).setWidth 32 := by
  by_cases hg : b.state = .done ∧ b.selTile < b.tilecount
  · by_cases hn : b.selTile.toNat < Config.tileStoreSize
    · rw [b.trow_selected hg.1 hg.2 hn] at h
      cases h
      exact .inr rfl
    · simp [Block.trow, hg, Block.loadTile, hn] at h
  · rw [b.trow_gated hg] at h
    cases h
    exact .inl ⟨hg, rfl⟩

/-- TROW: the selected row word while its gate is open, 0 above (R100, R127). -/
theorem Block.trow_fields {v : Word} (h : b.trow = some v) :
    v.extractLsb' 16 16 = 0 ∧
      (b.state = .done → b.selTile < b.tilecount → ∀ j < 16,
        v.getLsbD j = (b.ts.read b.selTile.toNat).getLsbD (16 * b.selRow.toNat + j)) := by
  obtain ⟨hg, rfl⟩ | rfl := b.trow_cases h
  · exact ⟨rfl, fun hdone hlt => absurd ⟨hdone, hlt⟩ hg⟩
  · refine ⟨(setWidth_fields _ 16).2, fun _ _ j hj => ?_⟩
    simp [hj, show j < 32 by omega]

/-- ERRHDRq has its own index (R39). -/
theorem Block.readReg_errHdr (q : Fin 4) : b.readReg (BitVec.ofNat 5 (12 + q.val)) = some (b.errHdr q) := by
  fin_cases q <;> rfl

/-- ERRHDRq while ECODE is INVALID_FORMAT: byte `4q + m` of the header in byte lane `m` (R100, R129). -/
theorem Block.errHdr_byte (q m : Fin 4) (h : b.ecode = .invalidFormat) :
    (b.errHdr q).extractLsb' (8 * m.val) 8 = b.hdr[4 * q.val + m.val] := by
  rw [Block.errHdr, if_pos h]
  fin_cases m
  · exact BitVec.extractLsb'_append_eq_right
  · rw [extract_high _ _ _ _ (by decide)]
    exact BitVec.extractLsb'_append_eq_right
  · iterate 2 rw [extract_high _ _ _ _ (by decide)]
    exact BitVec.extractLsb'_append_eq_right
  · iterate 2 rw [extract_high _ _ _ _ (by decide)]
    exact BitVec.extractLsb'_append_eq_left

/-- Settles O10: each index reads its register, whose fields are the lemmas above. -/
theorem readFormatsOfTheRegisterMap : Obligations.ReadFormatsOfTheRegisterMap := fun b =>
  ⟨⟨_, rfl, setWidth_fields b.etile 15⟩, ⟨_, rfl, setWidth_fields b.esrc 24⟩,
    ⟨_, rfl, setWidth_fields b.tilecount 15⟩, ⟨_, rfl, banks_fields b.pbc b.gbc⟩, ⟨_, rfl, b.tsel_fields⟩,
    fun _ h => b.trow_fields h, fun q m h => ⟨_, b.readReg_errHdr q, b.errHdr_byte q m h⟩, rfl, rfl, rfl, rfl⟩

/-- The loop control takes P_TDEC to P_TREAD or to P_DONE (R104, R184). -/
theorem Block.advanceTile_phase : b.advanceTile.phase = .tread ∨ b.advanceTile.phase = .done := by
  unfold Block.advanceTile
  split
  · split
    · exact .inr rfl
    · exact .inl rfl
  · exact .inl rfl

/-- A phase step takes an edge of the table or waits (R104). -/
theorem Block.PhaseStep.edge {src : Source} {b c : Block} (hs : Block.PhaseStep src b c) :
    (b.phase, c.phase) ∈ phaseEdges ∨ c = b := by
  cases hs with
  | wait => exact .inr rfl
  | header hp =>
    left
    rw [hp]
    split
    · simp [phaseEdges]
    · split <;> simp [phaseEdges]
  | magic hp =>
    left
    rw [hp]
    split <;> simp [phaseEdges]
  | counts hp =>
    left
    simp [hp, phaseEdges]
  | gfx hp =>
    left
    rw [hp]
    split <;> simp [phaseEdges]
  | seek hp =>
    left
    rw [hp]
    split <;> simp [phaseEdges]
  | tile hp =>
    left
    rw [hp]
    split
    · simp [phaseEdges]
    · split
      · simp [phaseEdges]
      · split
        · simp [phaseEdges]
        · split <;> simp [phaseEdges]
  | decode hp =>
    left
    obtain e | e := Block.advanceTile_phase { b with ts := b.ts.write b.tidx.toNat (entry b.tbuf) } <;>
      rw [e, hp] <;> decide

/-- Settles O44: the sequencer's step is the phase step. -/
theorem phaseStepsFollowTheTable : Obligations.PhaseStepsFollowTheTable := by
  intro s t hseq h
  rw [step_sequencer s hseq] at h
  obtain ⟨hb, -⟩ := phaseStep_next s.consumed t h
  exact hb.edge

end Sys2Proof.Machine
end

section
/-!
The host interface (spec/40_host_interface.md): what each host operation answers, writes and leaves alone.
-/

namespace Sys2Proof.Machine

variable {s : State} {b : Block}

/-- A step that only replaces the block keeps the surroundings and shows no traffic (R236). -/
theorem State.quiet_withBlock_frame (s : State) (b : Block) :
    s.SameSurroundings (s.quiet.withBlock b) ∧ s.NoTraffic (s.quiet.withBlock b) :=
  ⟨⟨rfl, rfl, rfl, rfl⟩, rfl, rfl, rfl, rfl⟩

/-- START outside BUSY (R121). -/
theorem execStart_accepted (x : BitVec 24) (h : s.block.state ≠ .busy) :
    execStart x s = .next (s.quiet.withBlock s.block.startRun) :=
  if_neg h

/-- START while BUSY (R122). -/
theorem execStart_rejected (x : BitVec 24) (h : s.block.state = .busy) :
    execStart x s = .next (s.quiet.withBlock s.block.reject) :=
  if_pos h

/-- RDROW of a TROW that has a value shows it (R127). -/
theorem exec_rdrow_of_trow {v : Word} (h : s.block.trow = some v) : exec .rdrow s = .next (s.showRead v) := by
  simp only [exec, execRdrow, h]

/-- ERR reads 0 while no error is recorded (R99). -/
theorem Block.errWord_of_none (hk : b.ecode = .none) (hp : b.ephase = .none) : b.errWord = 0 := by
  rw [Block.errWord, hk, hp]
  decide

/-- Settles O1: START outside BUSY takes the block to `startRun`, whose STATUS is `0x11` and whose read-out gate
is closed. -/
theorem startBeginsARunUnlessBusy : Obligations.StartBeginsARunUnlessBusy := by
  intro x s hs
  obtain ⟨hsame, hquiet⟩ := s.quiet_withBlock_frame s.block.startRun
  have hstatus : s.block.startRun.statusWord = 0x11 := by
    simp only [Block.statusWord, Block.startRun_state, Block.startRun_phase, Block.startRun_rej]
    decide
  exact ⟨_, execStart_accepted x hs, rfl, congrArg some hstatus,
    congrArg some (Block.errWord_of_none rfl rfl), rfl, Block.trow_gated _ nofun, hsame, hquiet⟩

/-- Settles O2: START while BUSY is rejected, a phase step keeps REJ, and of the inputs only reset and an accepted
START clear it. -/
theorem startWhileBusyOnlySetsRej : Obligations.StartWhileBusyOnlySetsRej := by
  refine ⟨fun x s hs => ?_, fun s t h hrej hcleared => ?_⟩
  · exact ⟨_, execStart_rejected x hs, rfl, s.quiet_withBlock_frame s.block.reject⟩
  · obtain ⟨-, ⟨-, hb, -⟩ | ⟨x, hx, -, hb, -⟩⟩ := step_next s t h
    · rw [hb.keeps.1, hrej] at hcleared
      cases hcleared
    · rw [hb] at hcleared
      cases x with
      | host we idx v =>
        by_cases hcmd : we = true ∧ idx = 0
        · obtain ⟨rfl, rfl⟩ := hcmd
          obtain ⟨hv, hidle⟩ : v.extractLsb' 0 8 = 0x01#8 ∧ s.block.state ≠ .busy := by
            simpa [Block.after_host_rej] using hcleared
          exact .inr ⟨⟨v, hx, hv⟩, hidle⟩
        · rw [Block.after_host_rej, if_neg hcmd, hrej] at hcleared
          cases hcleared
      | reset => exact .inl hx
      | sequencer | sourcePort | unpackPort | attach => cases hrej.symm.trans hcleared

/-- Settles O3: the low byte alone decides between START and a rejected code. -/
theorem reservedCommandOnlySetsRej : Obligations.ReservedCommandOnlySetsRej := by
  intro s v rest hin
  have hstep := (step_cons s rest _ hin).trans (runFetched_write_cmd _ v)
  refine ⟨fun hv => ?_, fun hv => ?_⟩
  · exact ⟨_, hstep.trans (if_neg hv), rfl, State.quiet_withBlock_frame _ _⟩
  · exact hstep.trans (if_pos hv)

/-- Settles O4: the write of any index but 0 and 7 selects no operation, and the step only ends what the ports
showed. -/
theorem otherWritesChangeNothing : Obligations.OtherWritesChangeNothing := by
  intro s idx v rest hin h0 h7
  exact ⟨_, (step_cons s rest _ hin).trans (runFetched_write_other _ idx v h0 h7), rfl,
    State.quiet_withBlock_frame { s with inputs := rest } s.block⟩

/-- Settles O7: every index has a value while TILECOUNT names entries that exist, and the read only shows it. -/
theorem registerReadAnswersAndChangesNothing : Obligations.RegisterReadAnswersAndChangesNothing := by
  intro n s hn
  obtain ⟨v, hv⟩ := s.block.readReg_answers n hn
  exact ⟨_, v, exec_rdreg_of_readReg hv, rfl, hv, rfl, ⟨rfl, rfl, rfl, rfl⟩, rfl, rfl, rfl⟩

/-- Settles O12: WRTSEL puts ROW above TILE in TSEL; a phase step keeps TSEL, and of the inputs only a write of index 7
and reset change it. -/
theorem wrtselSelectsTileAndRow : Obligations.WrtselSelectsTileAndRow := by
  refine ⟨fun x row tile s => ?_, fun s t h hne => ?_⟩
  · obtain ⟨hsame, hquiet⟩ := s.quiet_withBlock_frame { s.block with tsel := row ++ tile }
    have hread : ((row ++ tile : BitVec 20)).setWidth 32 = 0#12 ++ row ++ tile := by
      rw [BitVec.append_assoc]
      exact BitVec.setWidth_eq_append (by decide)
    refine ⟨_, rfl, rfl, BitVec.extractLsb'_append_eq_right, BitVec.extractLsb'_append_eq_left, ?_, hsame, hquiet⟩
    exact congrArg some hread
  · obtain ⟨-, ⟨-, hb, -⟩ | ⟨x, hx, -, hb, -⟩⟩ := step_next s t h
    · exact absurd hb.keeps.2 hne
    · rw [hb] at hne
      cases x with
      | host we idx v =>
        by_cases hsel : we = true ∧ idx = 7
        · obtain ⟨rfl, rfl⟩ := hsel
          exact .inr ⟨v, hx⟩
        · exact absurd (by rw [Block.after_host_tsel, if_neg hsel]) hne
      | reset => exact .inl hx
      | sequencer | sourcePort | unpackPort | attach => exact absurd rfl hne

/-- Settles O13: the read of TROW answers through its gate, and only shows the value. -/
theorem rdrowAnswersTheSelectedRowOrZero : Obligations.RdrowAnswersTheSelectedRowOrZero := by
  refine ⟨fun s hdone hlt hn => ?_, fun s hg => ?_⟩
  · obtain ⟨v, hv⟩ := s.block.trow_answers hn
    obtain ⟨hhigh, hrow⟩ := s.block.trow_fields hv
    exact ⟨_, v, exec_rdrow_of_trow hv, rfl, hrow hdone hlt, hhigh, rfl, ⟨rfl, rfl, rfl, rfl⟩, rfl⟩
  · exact ⟨_, exec_rdrow_of_trow (s.block.trow_gated hg), rfl, rfl, ⟨rfl, rfl, rfl, rfl⟩, rfl⟩

/-- TILECOUNT is 0 outside DONE (R41 (f)). -/
theorem Block.Legal.tilecount_zero (h : b.Legal) (hn : b.state ≠ .done) : b.tilecount = 0 :=
  Decidable.byContradiction fun e => hn (h.tilecount_done e)

/-- TILECOUNT is at most the number of entries of the tile store (R32): in DONE it is TIDX (R162). -/
theorem Block.Legal.tilecount_le (h : b.Legal) : b.tilecount.toNat ≤ Config.tileStoreSize := by
  by_cases hdone : b.state = .done
  · rw [h.tilecount_eq hdone]
    exact h.tidx_le
  · simp [h.tilecount_zero hdone]

/-- Settles O14: the read is the zero-extended register. -/
theorem tilecountReadsZeroUnlessDone : Obligations.TilecountReadsZeroUnlessDone := by
  intro s hinv
  have hval : (s.block.tilecount.setWidth 32).toNat = s.block.tilecount.toNat := by bv_omega
  refine ⟨_, _, exec_rdreg_of_readReg rfl, rfl, hval, hval ▸ hinv.legal.tilecount_le, fun h => ?_⟩
  rw [hinv.legal.tilecount_zero h]
  rfl

/-- Settles O15: ERRHDRq is gated by ECODE and then shows its four header bytes. -/
theorem errhdrReadsHeaderOnlyAfterInvalidFormat : Obligations.ErrhdrReadsHeaderOnlyAfterInvalidFormat := by
  intro q s
  exact ⟨_, _, exec_rdreg_of_readReg (s.block.readReg_errHdr q), rfl, fun h m => s.block.errHdr_byte q m h,
    fun h => if_neg h⟩

/-- Settles O16: the palette indices read constants (R38). -/
theorem paletteReadsItsConstants : Obligations.PaletteReadsItsConstants := by
  intro s
  exact ⟨_, _, _, _, exec_rdreg_of_readReg rfl, rfl, exec_rdreg_of_readReg rfl, rfl, exec_rdreg_of_readReg rfl, rfl,
    exec_rdreg_of_readReg rfl, rfl⟩

end Sys2Proof.Machine
end

section
/-!
Which steps answer (R120, R241, R243, R245, R247), and two runs over one source side by side (R121, R163).
-/

namespace Sys2Proof.Machine

variable {s u t : State} {b c : Block} {src : Source}

/-- The entry that TILE_DECODE writes exists (R41 (e), R7). -/
theorem Block.Legal.tidx_exists (h : b.Legal) (hp : b.phase = .tdec) : b.tidx.toNat < Config.tileStoreSize := by
  obtain ⟨-, -, hidx⟩ := h.loop_bound (by rw [hp]; rfl)
  have hgbc := b.gbc.isLt
  rw [Config.tileStoreSize]
  omega

/-- In the invariant the port is in use exactly during a run: a held request is a run's (R247). -/
theorem State.Inv.busy_of_sourceInUse (h : s.Inv) (hu : s.sourceInUse = true) : s.block.state = .busy := by
  obtain hb | hq := s.sourceInUse_true.1 hu
  · exact hb
  · exact Decidable.byContradiction fun hb => hq (h.ports.pending_none (h.legal.request_none hb))

/-- A transaction that the phase does not present is not the sequencer's turn (R236). -/
theorem State.not_sequencerNext_of_lone {op : Bool} {a : SrcAddr}
    (hx : s.inputs.head? = some (.sourcePort op a))
    (hacc : s.block.accessOf { op := if op then .seek else .read, addr := a } = none) : ¬s.SequencerNext := by
  rintro (e | e | ⟨op', a', e, hsome⟩)
  · simp [e] at hx
  · cases e.symm.trans hx
  · cases e.symm.trans hx
    simp [hacc] at hsome

/-- The outcome of a step is a next state, or one of the two stops of a run that is interfered with (R241, R243). -/
def State.AnswersOrStops (s : State) (o : Host.Outcome State Fault Refusal) : Prop :=
  (∃ t, o = .next t) ∨
    (s.block.state = .busy ∧ ∃ src, s.inputs.head? = some (.attach src) ∧ o = .fault .sourceChangedDuringRun) ∨
    (s.block.state = .busy ∧ (∃ op a, s.inputs.head? = some (.sourcePort op a)) ∧ ¬s.SequencerNext ∧
      o = .fault .sourceInUse)

/-- A transaction that no phase presents is answered while the port is free, which it is outside a run (log 9). -/
theorem State.Inv.lone_answersOrStops (h : s.Inv) {op : Bool} {a : SrcAddr}
    (hx : s.inputs.head? = some (.sourcePort op a))
    (hacc : s.block.accessOf { op := if op then .seek else .read, addr := a } = none) (t : State) :
    s.AnswersOrStops (if s.sourceInUse then .fault .sourceInUse else .next t) := by
  by_cases hu : s.sourceInUse = true
  · have hseq := State.not_sequencerNext_of_lone hx hacc
    exact .inr (.inr ⟨h.busy_of_sourceInUse hu, ⟨op, a, hx⟩, hseq, if_pos hu⟩)
  · exact .inl ⟨t, if_neg hu⟩

/-- Settles O51: of the cases of a step only a transaction that no phase presents and an attach can stop, both
only while BUSY. -/
theorem everyStepAnswers : Obligations.EveryStepAnswers := by
  intro s hinv
  have htc : s.block.tilecount.toNat ≤ Config.tileStoreSize := hinv.legal.tilecount_le
  apply step_cases s s.AnswersOrStops
  case phase =>
    intro _
    obtain ⟨t, ht, -⟩ := phaseStep_answers s.consumed hinv.legal.tidx_exists
    exact .inl ⟨t, ht⟩
  case start =>
    intro v _ _
    by_cases hb : s.block.state = .busy
    · exact .inl ⟨_, execStart_rejected _ hb⟩
    · exact .inl ⟨_, execStart_accepted _ hb⟩
  case reserved => exact fun _ _ _ => .inl ⟨_, rfl⟩
  case wrtsel => exact fun _ _ => .inl ⟨_, rfl⟩
  case ignored => exact fun _ _ _ _ _ => .inl ⟨_, rfl⟩
  case rdrow =>
    intro _ _
    obtain ⟨v, hv⟩ := s.block.trow_answers htc
    exact .inl ⟨_, exec_rdrow_of_trow (s := s.consumed) hv⟩
  case rdreg =>
    intro idx _ _ _
    obtain ⟨v, hv⟩ := s.block.readReg_answers idx htc
    exact .inl ⟨_, exec_rdreg_of_readReg (s := s.consumed) hv⟩
  case srcRead => exact fun a hx hacc => hinv.lone_answersOrStops hx hacc _
  case srcSeek => exact fun a hx hacc => hinv.lone_answersOrStops hx hacc _
  case unpack => exact fun _ _ => .inl ⟨_, rfl⟩
  case reset => exact fun _ => .inl ⟨_, rfl⟩
  case attach =>
    intro new hx
    by_cases hb : s.block.state = .busy
    · exact .inr (.inl ⟨hb, new, hx, if_pos hb⟩)
    · exact .inl ⟨_, if_neg hb⟩

/-- Two blocks in two runs over one source: they agree in every register that a run reads or writes, in HDR while
it is still read or shown, in TBUF while it holds a tile, and in the tiles stored. TSEL is the host's. -/
structure Block.SameRun (b c : Block) : Prop where
  registers : c = { b with hdr := c.hdr, tbuf := c.tbuf, tsel := c.tsel, ts := c.ts }
  hdr : b.phase = .magic ∨ b.phase = .counts ∨ b.ecode = .invalidFormat → c.hdr = b.hdr
  tbuf : b.phase = .tdec → c.tbuf = b.tbuf
  tiles : ∀ i < b.tidx.toNat, c.ts.read i = b.ts.read i

/-- The registers that the two runs may differ in, named apart from those they share. -/
theorem Block.SameRun.exists_update (h : b.SameRun c) :
    ∃ hdr tbuf tsel ts, c = { b with hdr := hdr, tbuf := tbuf, tsel := tsel, ts := ts } :=
  ⟨_, _, _, _, h.registers⟩

/-- HDR is shown after INVALID_FORMAT (R129). -/
theorem Block.SameRun.hdr_shown (h : b.SameRun c) (he : b.ecode = .invalidFormat) : c.hdr = b.hdr :=
  h.hdr (.inr (.inr he))

/-- An accepted START makes any two blocks agree (R121). -/
theorem Block.SameRun.startRun (b c : Block) : b.startRun.SameRun c.startRun :=
  ⟨rfl, by simp, by simp, by simp⟩

/-- Error entry (R210). -/
theorem Block.SameRun.raise (h : b.SameRun c) {k : ErrorKind} (hk : k ≠ .invalidFormat ∨ c.hdr = b.hdr)
    (p : ErrorPhase) (n : TileIdx) (x : Byte) : (b.raise k p n x).SameRun (c.raise k p n x) := by
  have hshown : k = .invalidFormat → c.hdr = b.hdr := fun e => hk.resolve_left (absurd e)
  obtain ⟨x, y, z, m, rfl⟩ := h.exists_update
  exact ⟨rfl, by simpa using hshown, by simp, h.tiles⟩

/-- Completion (R162). -/
theorem Block.SameRun.complete (h : b.SameRun c) (n : TileIdx) : (b.complete n).SameRun (c.complete n) := by
  obtain ⟨x, y, z, m, rfl⟩ := h.exists_update
  exact ⟨rfl, by simpa using h.hdr_shown, by simp, h.tiles⟩

/-- The store of the tile in TBUF and the loop control (R184). -/
theorem Block.SameRun.decodeTile (h : b.SameRun c) (hp : b.phase = .tdec) (hb : b.ts.wf = true)
    (hc : c.ts.wf = true) :
    (Block.advanceTile { b with ts := b.ts.write b.tidx.toNat (entry b.tbuf) }).SameRun
      (Block.advanceTile { c with ts := c.ts.write c.tidx.toNat (entry c.tbuf) }) := by
  have htiles : ∀ i < (b.tidx + 1).toNat, (c.ts.write b.tidx.toNat (entry c.tbuf)).read i =
      (b.ts.write b.tidx.toNat (entry b.tbuf)).read i := by
    intro i hi
    rw [Memory.read_write _ _ _ _ hb, Memory.read_write _ _ _ _ hc, h.tbuf hp]
    split
    · rfl
    · exact h.tiles i (by bv_omega)
  have hshown := h.hdr_shown
  obtain ⟨x, y, z, m, rfl⟩ := h.exists_update
  unfold Block.advanceTile
  dsimp only
  split
  · split <;> exact ⟨rfl, by simpa using hshown, by simp, htiles⟩
  · exact ⟨rfl, by simpa using hshown, by simp, htiles⟩

/-- The phase step keeps two runs over one source together (R104). -/
theorem Block.SameRun.nextBlock (h : b.SameRun c) (hb : b.ts.wf = true) (hc : c.ts.wf = true) (src : Source) :
    (src.nextBlock b).SameRun (src.nextBlock c) := by
  have hphase : c.phase = b.phase := by rw [h.registers]
  have hshown := h.hdr_shown
  cases hp : b.phase with
  | idle | done | error =>
    simpa only [Source.nextBlock, hphase, hp] using h
  | hdr =>
    simp only [Source.nextBlock, hphase, hp]
    obtain ⟨x, y, z, m, rfl⟩ := h.exists_update
    dsimp only
    split
    · exact h
    · split
      · exact h.raise (.inl (by decide)) _ _ _
      · split
        · exact ⟨rfl, fun _ => rfl, by simp, h.tiles⟩
        · exact h.raise (.inl (by decide)) _ _ _
  | magic =>
    have hhdr := h.hdr (.inl hp)
    simp only [Source.nextBlock, hphase, hp]
    obtain ⟨x, y, z, m, rfl⟩ := h.exists_update
    obtain rfl : x = b.hdr := hhdr
    dsimp only
    split
    · exact ⟨rfl, fun _ => rfl, by simp, h.tiles⟩
    · exact h.raise (.inr rfl) _ _ _
  | counts =>
    have hhdr := h.hdr (.inr (.inl hp))
    simp only [Source.nextBlock, hphase, hp]
    obtain ⟨x, y, z, m, rfl⟩ := h.exists_update
    obtain rfl : x = b.hdr := hhdr
    exact ⟨rfl, fun _ => rfl, by simp, h.tiles⟩
  | gfxchk =>
    simp only [Source.nextBlock, hphase, hp]
    obtain ⟨x, y, z, m, rfl⟩ := h.exists_update
    dsimp only
    split
    · exact h.raise (.inl (by decide)) _ _ _
    · exact ⟨rfl, by simpa using hshown, by simp, h.tiles⟩
  | seek =>
    simp only [Source.nextBlock, hphase, hp]
    obtain ⟨x, y, z, m, rfl⟩ := h.exists_update
    dsimp only
    split
    · exact h
    · split
      · exact h.raise (.inl (by decide)) _ _ _
      · exact ⟨rfl, by simpa using hshown, by simp, h.tiles⟩
  | tread =>
    simp only [Source.nextBlock, hphase, hp]
    obtain ⟨x, y, z, m, rfl⟩ := h.exists_update
    dsimp only
    split
    · exact h
    · split
      · exact h.raise (.inl (by decide)) _ _ _
      · split
        · exact h.raise (.inl (by decide)) _ _ _
        · split
          · exact ⟨rfl, by simpa using hshown, fun _ => rfl, h.tiles⟩
          · split
            · exact h.complete _
            · exact h.raise (.inl (by decide)) _ _ _
  | tdec =>
    simpa only [Source.nextBlock, hphase, hp] using h.decodeTile hp hb hc

/-- What two blocks in two runs show is the same; the tiles below TILECOUNT are stored (R162). -/
theorem Block.SameRun.samePoint (h : b.SameRun c) (hl : b.Legal) : b.SamePoint c := by
  have herrHdr : ∀ q, c.errHdr q = b.errHdr q := by
    intro q
    have hecode : c.ecode = b.ecode := by rw [h.registers]
    by_cases he : b.ecode = .invalidFormat
    · simp only [Block.errHdr, hecode, h.hdr_shown he]
    · simp only [Block.errHdr, hecode, he, if_false]
  have htiles : b.state = .done → ∀ i < b.tilecount.toNat, c.ts.read i = b.ts.read i := fun hdone i hi =>
    h.tiles i (hl.tilecount_eq hdone ▸ hi)
  obtain ⟨x, y, z, m, rfl⟩ := h.exists_update
  exact ⟨rfl, rfl, rfl, rfl, rfl, rfl, rfl, rfl, rfl, rfl, rfl, rfl, rfl, rfl, herrHdr, htiles⟩

/-- Two machines in two runs over one source, with nothing coming in. -/
structure State.SameRun (s u : State) : Prop where
  inv_left : s.Inv
  inv_right : u.Inv
  inputs_left : s.inputs = []
  inputs_right : u.inputs = []
  source : u.source = s.source
  block : s.block.SameRun u.block

/-- Both machines answer the next step and are again in two runs over the source. -/
theorem State.SameRun.step_both (h : s.SameRun u) :
    ∃ t w, step s = .next t ∧ step u = .next w ∧ t.SameRun w := by
  obtain ⟨t, ht, htb, hts, hti⟩ := phaseStep_answers s h.inv_left.legal.tidx_exists
  obtain ⟨w, hw, hwb, hws, hwi⟩ := phaseStep_answers u h.inv_right.legal.tidx_exists
  rw [← step_phaseStep s h.inputs_left] at ht
  rw [← step_phaseStep u h.inputs_right] at hw
  refine ⟨t, w, ht, hw,
    { inv_left := everyStepKeepsTheInvariant s t h.inv_left ht
      inv_right := everyStepKeepsTheInvariant u w h.inv_right hw
      inputs_left := hti.trans h.inputs_left
      inputs_right := hwi.trans h.inputs_right
      source := by rw [hts, hws, h.source]
      block := ?_ }⟩
  rw [htb, hwb, h.source]
  exact h.block.nextBlock h.inv_left.legal.ts_wf h.inv_right.legal.ts_wf s.source

/-- A relation that every pair of steps keeps holds after any number of them. -/
theorem run_lockstep (R : State → State → Prop)
    (hR : ∀ s u, R s u → ∃ t w, step s = .next t ∧ step u = .next w ∧ R t w) (n : Nat) (h : R s u) :
    ∃ t w, Sys2Proof.core.run n s = .next t ∧ Sys2Proof.core.run n u = .next w ∧ R t w := by
  induction n generalizing s u with
  | zero => exact ⟨s, u, rfl, rfl, h⟩
  | succ n ih =>
    obtain ⟨t, w, ht, hw, htw⟩ := hR s u h
    rw [run_succ s t n ht, run_succ u w n hw]
    exact ih htw

/-- A step that accepts START (R121). -/
theorem step_startNext {v : Word} {rest : List Input} (hin : s.inputs = .host true 0 v :: rest)
    (hv : v.extractLsb' 0 8 = 0x01#8) (hs : s.block.state ≠ .busy) :
    step s = .next (s.consumed.quiet.withBlock s.block.startRun) := by
  have hconsumed : ({ s with inputs := rest } : State) = s.consumed := by simp [State.consumed, hin]
  rw [step_cons s rest _ hin, hconsumed, Input.present, runFetched_write_cmd, if_pos hv]
  exact execStart_accepted _ hs

/-- Settles O28: START makes the two blocks agree in all that a run reads, every phase step keeps that, and it
fixes what they show. -/
theorem runsDoNotDependOnEarlierRuns : Obligations.RunsDoNotDependOnEarlierRuns := by
  intro s u v hs hu hsb hub hsrc hsin huin hv n
  have ht := step_startNext hsin hv hsb
  have hw := step_startNext huin hv hub
  rw [run_succ s _ n ht, run_succ u _ n hw]
  have h : State.SameRun (s.consumed.quiet.withBlock s.block.startRun) (u.consumed.quiet.withBlock u.block.startRun) :=
    { inv_left := everyStepKeepsTheInvariant s _ hs ht
      inv_right := everyStepKeepsTheInvariant u _ hu hw
      inputs_left := by simp [hsin]
      inputs_right := by simp [huin]
      source := hsrc
      block := .startRun s.block u.block }
  obtain ⟨t, w, ht, hw, htw⟩ := run_lockstep State.SameRun (fun _ _ => State.SameRun.step_both) n h
  exact ⟨t, w, ht, hw, htw.block.samePoint htw.inv_left.legal⟩

end Sys2Proof.Machine
end

section
/-!
The header validator (spec/41_header_validation.md): the outcomes of HDR_READ, MAGIC_CHECK, COUNT_LATCH and GFX_CHECK.
-/

namespace Sys2Proof.Machine

variable {s : State} {b : Block} {src : Source} {acc : Option Access} {a : SrcAddr} {k : Nat}

/-- A held request keeps the surroundings (R247). -/
theorem State.holdRequest_sameSurroundings (s : State) (q : SrcRequest) : s.SameSurroundings (s.holdRequest q) :=
  ⟨rfl, rfl, rfl, rfl⟩

/-- HDR_READ of a read that fails (R64, R140). -/
theorem Block.takeHeader_failed {c : Byte} (h : src.failCode acc = some c) :
    b.takeHeader (src.readResponse acc a k) = b.raise .sourceFailure .headerRead 0 c := by
  rw [Block.takeHeader_readResponse, h]

/-- HDR_READ of a full read (R140). -/
theorem Block.takeHeader_full (h : src.failCode acc = none) (hl : a.toNat + 16 ≤ src.image.len) :
    b.takeHeader (src.readResponse acc a k) =
      { b with hdr := src.image.bytes16 a.toNat, pos := b.pos + 16, phase := .magic } := by
  rw [Block.takeHeader_readResponse, h]
  exact if_pos hl

/-- HDR_READ of a short read (R140). -/
theorem Block.takeHeader_short (h : src.failCode acc = none) (hl : src.image.len < a.toNat + 16) :
    b.takeHeader (src.readResponse acc a k) = b.raise .truncatedInput .headerRead 0 0 := by
  rw [Block.takeHeader_readResponse, h]
  exact if_neg (Nat.not_le.2 hl)

/-- Settles O17: a stalled read is only held; an answered one is shown, and `takeHeader` makes one of its three
outcomes of the response at address 0. -/
theorem hdrReadTakesAFullHeaderOrRaises : Obligations.HdrReadTakesAFullHeaderOrRaises := by
  intro s hpos
  by_cases hstall : s.source.stall = some .hdr
  · have hexec := execHdrRead_stalled s hstall
    rw [hpos] at hexec
    exact ⟨_, hexec, s.holdRequest_sameSurroundings _, rfl, fun _ => ⟨rfl, rfl, rfl⟩, absurd hstall⟩
  · have hexec := execHdrRead_answered s hstall
    rw [hpos] at hexec
    obtain ⟨hsame, hread, hfree, hdone⟩ :=
      s.srcRead16_shows (a := 0) ((s.source.stalls_some_false .hdr).2 hstall)
    refine ⟨_, hexec, hsame, hread, fun h => absurd h hstall, fun _ => ⟨hfree, ?_, ?_, ?_, ?_⟩⟩
    · exact ⟨_, hdone, s.source.readResponse_answers (some .hdr) 0 s.freeNext⟩
    · exact fun c hc => Block.takeHeader_failed hc
    · intro hfail hlen
      have hnext : s.block.pos + 16 = 16 := by rw [hpos]; rfl
      have htake := Block.takeHeader_full (b := s.block) (acc := some .hdr) (a := 0) (k := s.freeNext) hfail
        (by simpa using hlen)
      rwa [hnext] at htake
    · exact fun hfail hlen => Block.takeHeader_short hfail (by simpa using hlen)

/-- MAGIC_CHECK of the signature (R141). -/
theorem execMagicCheck_passes (h : magicMatches s.block.hdr = true) :
    execMagicCheck s = .next (s.quiet.withBlock { s.block with phase := .counts }) :=
  if_pos h

/-- MAGIC_CHECK of any other four bytes (R141). -/
theorem execMagicCheck_raises (h : magicMatches s.block.hdr ≠ true) :
    execMagicCheck s = .next (s.quiet.withBlock (s.block.raise .invalidFormat .none 0 0)) :=
  if_neg h

/-- Settles O18: the comparison of R91 decides between the two outcomes, and both keep the counts, which are 0 in
P_MAGIC. -/
theorem magicCheckPassesOnlyTheSignature : Obligations.MagicCheckPassesOnlyTheSignature := by
  intro s
  rw [← magicMatches_iff]
  have hcounts : s.Inv → s.block.phase = .magic → s.block.pbc = 0 ∧ s.block.gbc = 0 := fun hinv hp =>
    hinv.legal.counts_unlatched (.inr hp)
  by_cases hm : magicMatches s.block.hdr = true
  · obtain ⟨hsame, hquiet⟩ := s.quiet_withBlock_frame { s.block with phase := .counts }
    exact ⟨_, execMagicCheck_passes hm, hsame, hquiet, fun _ => rfl, fun h => absurd hm h, hcounts⟩
  · obtain ⟨hsame, hquiet⟩ := s.quiet_withBlock_frame (s.block.raise .invalidFormat .none 0 0)
    exact ⟨_, execMagicCheck_raises hm, hsame, hquiet, fun h => absurd h hm, fun _ => rfl, hcounts⟩

/-- Settles O19: COUNT_LATCH only replaces the block, and BANKS packs the two bytes it latched. -/
theorem countLatchLatchesBothCounts : Obligations.CountLatchLatchesBothCounts := by
  intro s
  obtain ⟨hsame, hquiet⟩ := s.quiet_withBlock_frame
    { s.block with pbc := s.block.hdr[4], gbc := s.block.hdr[5], phase := .gfxchk }
  exact ⟨_, rfl, hsame, hquiet, rfl, rfl⟩

/-- GFX_CHECK of a zero graphics-bank count (R143). -/
theorem execGfxCheck_raises (h : s.block.gbc = 0) :
    execGfxCheck s = .next (s.quiet.withBlock (s.block.raise .unsupportedGraphicsStorage .none 0 0)) :=
  if_pos h

/-- GFX_CHECK of any other graphics-bank count (R143). -/
theorem execGfxCheck_passes (h : s.block.gbc ≠ 0) :
    execGfxCheck s = .next (s.quiet.withBlock { s.block with phase := .seek }) :=
  if_neg h

/-- Settles O20: the graphics-bank count alone decides between the two outcomes. -/
theorem gfxCheckRaisesOnlyOnZeroBanks : Obligations.GfxCheckRaisesOnlyOnZeroBanks := by
  intro s
  by_cases hg : s.block.gbc = 0
  · obtain ⟨hsame, hquiet⟩ := s.quiet_withBlock_frame (s.block.raise .unsupportedGraphicsStorage .none 0 0)
    exact ⟨_, execGfxCheck_raises hg, hsame, hquiet, fun _ => rfl, absurd hg⟩
  · obtain ⟨hsame, hquiet⟩ := s.quiet_withBlock_frame { s.block with phase := .seek }
    exact ⟨_, execGfxCheck_passes hg, hsame, hquiet, fun h => absurd h hg, fun _ => rfl⟩

end Sys2Proof.Machine
end

section
/-!
The address calculator (spec/42_bank_address.md): the address of the graphics region and the outcomes of BANK_SEEK.
-/

namespace Sys2Proof.Machine

variable {b : Block} {src : Source} {acc : Option Access} {a : SrcAddr}

/-- `p × 16384` is `p` shifted left by 14 and `16 < 2^14`, so the addition has no carry (R150). -/
theorem gfxBase_eq_append (p : Byte) : gfxBase p = 0#1 ++ p ++ 0x0010#14 := by
  have hlow : (0x0010#14).toNat < 2 ^ 14 := (0x0010#14).isLt
  have hhigh : (0#1 ++ p).toNat = p.toNat := by
    rw [BitVec.toNat_append]
    simp
  apply BitVec.eq_of_toNat_eq
  calc (gfxBase p).toNat
    _ = 16 + p.toNat * 16384 := gfxBase_toNat p
    _ = p.toNat <<< 14 + (0x0010#14).toNat := by rw [Nat.shiftLeft_eq, Nat.add_comm]; rfl
    _ = p.toNat <<< 14 ||| (0x0010#14).toNat := Nat.shiftLeft_add_eq_or_of_lt hlow _
    _ = (0#1 ++ p ++ 0x0010#14).toNat := by rw [BitVec.toNat_append, hhigh]

/-- Settles O21: the value is exact, so its largest is that of `p = 255`. -/
theorem gfxBaseIsExactAndCarryFree : Obligations.GfxBaseIsExactAndCarryFree := by
  intro p
  have hp : p.toNat < 256 := p.isLt
  have hexact := gfxBase_toNat p
  exact ⟨hexact, gfxBase_eq_append p, by omega⟩

/-- BANK_SEEK of a seek that fails (R65, R151). -/
theorem Block.takeSeek_failed {c : Byte} (h : src.failCode acc = some c) :
    b.takeSeek a (src.seekResponse acc) = b.raise .sourceFailure .seek 0 c := by
  rw [Block.takeSeek_seekResponse, h]

/-- BANK_SEEK of a seek that does not fail (R151). -/
theorem Block.takeSeek_moves (h : src.failCode acc = none) :
    b.takeSeek a (src.seekResponse acc) = { b with pos := a, phase := .tread } := by
  rw [Block.takeSeek_seekResponse, h]

/-- Settles O22: a stalled seek is only held; an answered one is shown, and FAIL alone decides between the two
outcomes that `takeSeek` makes of the response. -/
theorem bankSeekMovesToTheRegionOrRaises : Obligations.BankSeekMovesToTheRegionOrRaises := by
  intro s
  by_cases hstall : s.source.stall = some .seek
  · exact ⟨_, execBankSeek_stalled s hstall, s.holdRequest_sameSurroundings _, rfl, fun _ => ⟨rfl, rfl, rfl⟩,
      absurd hstall⟩
  · obtain ⟨hsame, hread, hfree, -, hdone⟩ :=
      s.srcSeek_shows (a := gfxBase s.block.pbc) ((s.source.stalls_some_false .seek).2 hstall)
    refine ⟨_, execBankSeek_answered s hstall, hsame, hread, fun h => absurd h hstall,
      fun _ => ⟨hfree, ?_, ?_, ?_⟩⟩
    · exact ⟨_, hdone, s.source.seekResponse_answers (some .seek)⟩
    · exact fun c hc => Block.takeSeek_failed hc
    · exact fun hfail => Block.takeSeek_moves hfail

end Sys2Proof.Machine
end

section
/-!
The read half of the tile loop (spec/43_tile_fetch.md): the five outcomes of TILE_READ and the number of tiles.
-/

namespace Sys2Proof.Machine

variable {s : State} {b c : Block} {src : Source} {acc : Option Access} {a : SrcAddr} {k : Nat}

/-- TILE_READ of a read that fails (R64, R160 outcome 1). -/
theorem Block.takeTile_failed {c : Byte} (h : src.failCode acc = some c) :
    b.takeTile (src.readResponse acc a k) = b.raise .sourceFailure .tileRead b.tidx c := by
  rw [Block.takeTile_readResponse, h]

/-- TILE_READ of a read past the end of the source (R160 outcome 2). -/
theorem Block.takeTile_past (h : src.failCode acc = none) (hl : src.image.len < a.toNat) :
    b.takeTile (src.readResponse acc a k) = b.raise .truncatedInput .tileRead b.tidx 0 := by
  rw [Block.takeTile_readResponse, h]
  exact if_pos hl

/-- TILE_READ of a full read (R160 outcome 3). -/
theorem Block.takeTile_full (h : src.failCode acc = none) (hl : a.toNat + 16 ≤ src.image.len) :
    b.takeTile (src.readResponse acc a k) =
      { b with tbuf := src.image.bytes16 a.toNat, pos := b.pos + 16, phase := .tdec } := by
  have hpast : ¬src.image.len < a.toNat := by omega
  rw [Block.takeTile_readResponse, h]
  simp only [hpast, hl, if_true, if_false]

/-- TILE_READ at the clean end of the source (R160 outcome 4). -/
theorem Block.takeTile_end (h : src.failCode acc = none) (hl : src.image.len = a.toNat) :
    b.takeTile (src.readResponse acc a k) = b.complete b.tidx := by
  rw [Block.takeTile_readResponse, h]
  simp [hl]

/-- TILE_READ of a source that ends partway through the tile (R160 outcome 5). -/
theorem Block.takeTile_short (h : src.failCode acc = none) (hl : a.toNat < src.image.len)
    (hs : src.image.len < a.toNat + 16) :
    b.takeTile (src.readResponse acc a k) = b.raise .truncatedInput .tileRead b.tidx 0 := by
  have hpast : ¬src.image.len < a.toNat := by omega
  have hfull : ¬a.toNat + 16 ≤ src.image.len := by omega
  have hend : ¬src.image.len = a.toNat := by omega
  rw [Block.takeTile_readResponse, h]
  simp only [hpast, hfull, hend, if_false]

/-- Only the first tile read can start past the end: a later one follows a full read (R160 (a)). -/
theorem State.Inv.tidx_of_past (h : s.Inv) (hp : s.block.phase = .tread)
    (hl : s.source.image.len < s.block.pos.toNat) : s.block.tidx = 0 := by
  by_contra hne
  have hpos : s.block.pos.toNat = regionBase s.block.pbc + 16 * s.block.tidx.toNat := h.legal.pos_tread hp
  have hwithin := h.data.within hp hne
  omega

/-- Settles O23: a stalled read is only held; an answered one is shown, and `takeTile` makes one of its five
outcomes of the response at POS. -/
theorem tileReadHasFiveOutcomes : Obligations.TileReadHasFiveOutcomes := by
  intro s
  refine ⟨?_, State.Inv.tidx_of_past⟩
  by_cases hstall : s.source.stall = some (.tile s.block.tidx.toNat)
  · exact ⟨_, execTileRead_stalled s hstall, s.holdRequest_sameSurroundings _, rfl, fun _ => ⟨rfl, rfl, rfl⟩,
      absurd hstall⟩
  · obtain ⟨hsame, hread, hfree, hdone⟩ :=
      s.srcRead16_shows (a := s.block.pos) ((s.source.stalls_some_false (.tile s.block.tidx.toNat)).2 hstall)
    refine ⟨_, execTileRead_answered s hstall, hsame, hread, fun h => absurd h hstall,
      fun _ => ⟨hfree, ?_, ?_, fun hfail => ⟨?_, ?_, ?_, ?_⟩⟩⟩
    · exact ⟨_, hdone, s.source.readResponse_answers _ s.block.pos s.freeNext⟩
    · exact fun c hc => Block.takeTile_failed hc
    · exact Block.takeTile_past hfail
    · exact Block.takeTile_full hfail
    · exact Block.takeTile_end hfail
    · exact Block.takeTile_short hfail

/-- TILE_READ completes only when the source ends exactly at POS (R160 outcome 4). -/
theorem Block.PhaseStep.done_at_end (hs : Block.PhaseStep src b c) (hp : b.phase = .tread)
    (hb : b.state ≠ .done) (hc : c.state = .done) : src.image.len = b.pos.toNat := by
  cases hs with
  | wait => exact absurd hc hb
  | header h | magic h | counts h | gfx h | seek h | decode h => simp [hp] at h
  | tile =>
    revert hc
    split
    · nofun
    · split
      · nofun
      · split
        · exact fun hc => absurd hc hb
        · split
          · exact fun _ => ‹_›
          · nofun

/-- TILE_DECODE completes only after the last declared tile (R184). -/
theorem Block.Legal.advanceTile_done (h : b.Legal) (hp : b.phase = .tdec) (hd : b.advanceTile.state = .done) :
    b.advanceTile.tilecount.toNat = b.tidx.toNat + 1 ∧ b.tidx.toNat + 1 = 512 * b.gbc.toNat ∧
      b.advanceTile.pbc = b.pbc ∧ b.advanceTile.gbc = b.gbc := by
  have hbusy : b.state = .busy := by rw [h.state_of_phase, hp]; rfl
  obtain ⟨hnext, bank, tib, hi, ⟨-, e⟩ | ⟨hbank, htib, e⟩⟩ := h.advanceTile_cases hp
  · rw [e] at hd
    simp [hbusy] at hd
  · rw [e]
    refine ⟨hnext, ?_, rfl, rfl⟩
    rw [hnext, hbank, htib] at hi
    exact hi

/-- Settles O24: a run ends in DONE where the source ends on a tile boundary below the last declared tile, or
after that tile, which the source then holds. -/
theorem doneCountIsTheDeclaredOrTheAvailable : Obligations.DoneCountIsTheDeclaredOrTheAvailable := by
  intro s t hinv h hbusy hdone
  obtain ⟨-, ⟨-, hb, -⟩ | ⟨x, -, -, hb, -⟩⟩ := step_next s t h
  · obtain ⟨hp, e⟩ | ⟨hp, ht, e⟩ := hb.to_done hbusy hdone
    · have hlen : s.source.image.len = s.block.pos.toNat := hb.done_at_end hp (by simp [hbusy]) hdone
      have hpos : s.block.pos.toNat = regionBase s.block.pbc + 16 * s.block.tidx.toNat :=
        hinv.legal.pos_tread hp
      obtain ⟨-, -, hidx⟩ := hinv.legal.loop_bound (by rw [hp]; rfl)
      simp only [e, Block.complete_tilecount, Block.complete_gbc, Block.complete_pbc]
      omega
    · have hlegal := hinv.legal.withStored ht (entry s.block.tbuf)
      obtain ⟨hcount, hlast, hpbc, hgbc⟩ := hlegal.advanceTile_done hp (e ▸ hdone)
      obtain ⟨hext, -⟩ := hinv.data.tile hp
      rw [e, hcount, hpbc, hgbc]
      dsimp only at hlast ⊢
      omega
  · exact absurd (hb ▸ hdone) (Block.after_not_done hbusy x)

end Sys2Proof.Machine
end

section
/-!
A whole run (R161, R163): from P_HDR on, with nothing coming in and a source that answers, each phase ends the run as
the cases of R163 that are left say, within the phase steps that are left. The lemmas go backward, from the tile loop
to START.
-/

namespace Sys2Proof.Machine

variable {s : State} {b : Block} {src : Source} {e : RunEnd} {n : Nat}

/-- Cases 5 to 10 of R163. -/
def Source.endFromSeek (src : Source) : RunEnd :=
  match src.fail.code? .seek with
  | some c => .error .sourceFailure .seek 0 c
  | none => src.endFromTile (512 * (src.image.byte 5).toNat) 0

/-- Cases 4 to 10 of R163. -/
def Source.endFromCounts (src : Source) : RunEnd :=
  if src.image.byte 5 = 0 then .error .unsupportedGraphicsStorage .none 0 0 else src.endFromSeek

/-- Cases 3 to 10 of R163. -/
def Source.endFromMagic (src : Source) : RunEnd :=
  if src.image.hasMagic = false then .error .invalidFormat .none 0 0 else src.endFromCounts

/-- Case 1 of R163. -/
theorem Source.runEnd_failed {c : Byte} (h : src.fail.code? .hdr = some c) :
    src.runEnd = .error .sourceFailure .headerRead 0 c := by
  simp only [Source.runEnd, h]

/-- Case 2 of R163. -/
theorem Source.runEnd_short (h : src.fail.code? .hdr = none) (hl : ¬16 ≤ src.image.len) :
    src.runEnd = .error .truncatedInput .headerRead 0 0 := by
  simp only [Source.runEnd, h, Nat.not_le.1 hl, if_true]

/-- The cases of R163 after the header read. -/
theorem Source.runEnd_full (h : src.fail.code? .hdr = none) (hl : 16 ≤ src.image.len) :
    src.runEnd = src.endFromMagic := by
  simp only [Source.runEnd, h, Nat.not_lt.2 hl, if_false]
  rfl

/-- A machine in a run over `src` that answers, with nothing coming in and no command rejected. -/
structure State.RunsOver (s : State) (src : Source) : Prop where
  inv : s.Inv
  source : s.source = src
  inputs : s.inputs = []
  stall : src.stall = none
  rej : s.block.rej = false

/-- At most `n` steps end the run over `src`, and the block then shows the end `e`. -/
def State.EndsWithin (s : State) (n : Nat) (src : Source) (e : RunEnd) : Prop :=
  ∃ m ≤ n, ∃ t, Sys2Proof.core.run m s = .next t ∧ t.block.ended ∧ t.source = src ∧ t.block.rej = false ∧
    t.block.ShowsEnd src e

/-- The step of a run that nothing disturbs. -/
theorem State.RunsOver.step (h : s.RunsOver src) :
    ∃ t, Machine.step s = .next t ∧ t.block = src.nextBlock s.block ∧ t.RunsOver src := by
  obtain ⟨t, ht, hb, hs, hi⟩ := phaseStep_answers s h.inv.legal.tidx_exists
  obtain ⟨hphase, -⟩ := phaseStep_next s t ht
  rw [← step_phaseStep s h.inputs] at ht
  exact ⟨t, ht, h.source ▸ hb,
    { inv := everyStepKeepsTheInvariant s t h.inv ht
      source := hs.trans h.source
      inputs := hi.trans h.inputs
      stall := h.stall
      rej := hphase.keeps.1.trans h.rej }⟩

/-- The run goes on with the block that the phase step makes. -/
theorem State.RunsOver.endsWithin_succ (h : s.RunsOver src)
    (hnext : ∀ t : State, t.RunsOver src → t.block = src.nextBlock s.block → t.EndsWithin n src e) :
    s.EndsWithin (n + 1) src e := by
  obtain ⟨t, ht, hb, hrun⟩ := h.step
  obtain ⟨m, hm, w, hw, hend⟩ := hnext t hrun hb
  exact ⟨m + 1, by omega, w, (run_succ s t m ht).trans hw, hend⟩

/-- A block that shows an end has ended (R246). -/
theorem Block.ShowsEnd.ended (h : b.ShowsEnd src e) : b.ended := by
  obtain ⟨hcase, -⟩ := h
  cases e with
  | error => exact .inr hcase.1
  | done => exact .inl hcase.1

/-- A machine whose block shows the end has nothing left to do. -/
theorem State.RunsOver.endsWithin_of_showsEnd (h : s.RunsOver src) (hend : s.block.ShowsEnd src e) :
    s.EndsWithin n src e :=
  ⟨0, Nat.zero_le n, s, run_zero s, hend.ended, h.source, h.rej, hend⟩

/-- The block shows the error that a phase raises (R210), when it shows the counts that go with it. -/
theorem Block.raise_showsEnd {k : ErrorKind} {p : ErrorPhase} {i : TileIdx} {x : Byte}
    (hhdr : k = .invalidFormat → b.hdr = src.image.bytes16 0)
    (hpbc : b.pbc = if (RunEnd.error k p i.toNat x).latched then src.image.byte 4 else 0)
    (hgbc : b.gbc = if (RunEnd.error k p i.toNat x).latched then src.image.byte 5 else 0) :
    (b.raise k p i x).ShowsEnd src (.error k p i.toNat x) :=
  ⟨⟨rfl, rfl, rfl, rfl, rfl, rfl, rfl, hhdr⟩, hpbc, hgbc⟩

/-- A run whose next phase step raises an error before COUNT_LATCH. -/
theorem State.RunsOver.endsWithin_raise_unlatched (h : s.RunsOver src)
    (hp : s.block.phase = .hdr ∨ s.block.phase = .magic) {k : ErrorKind} {p : ErrorPhase} {x : Byte}
    (hnext : src.nextBlock s.block = s.block.raise k p 0 x)
    (hk : (RunEnd.error k p 0 x).latched = false)
    (hhdr : k = .invalidFormat → s.block.hdr = src.image.bytes16 0) :
    s.EndsWithin (n + 1) src (.error k p 0 x) := by
  obtain ⟨hpbc, hgbc⟩ := h.inv.legal.counts_unlatched hp
  refine h.endsWithin_succ fun t ht hb => ht.endsWithin_of_showsEnd ?_
  rw [hb, hnext]
  exact Block.raise_showsEnd hhdr (by simp [hk, hpbc]) (by simp [hk, hgbc])

/-- The counts that COUNT_LATCH latched (R142). -/
theorem State.RunsOver.counts (h : s.RunsOver src) (hp : s.block.phase.countsLatched = true) :
    s.block.pbc = src.image.byte 4 ∧ s.block.gbc = src.image.byte 5 :=
  h.source ▸ h.inv.data.counts hp

/-- The counts are latched before the tile loop (R104). -/
theorem Phase.countsLatched_of_inLoop {p : Phase} (h : p.inLoop = true) : p.countsLatched = true := by
  revert h
  cases p <;> decide

/-- A run whose next phase step raises an error after COUNT_LATCH. -/
theorem State.RunsOver.endsWithin_raise_latched (h : s.RunsOver src)
    (hp : s.block.phase.countsLatched = true) {k : ErrorKind} {p : ErrorPhase} {i : TileIdx} {x : Byte}
    (hnext : src.nextBlock s.block = s.block.raise k p i x)
    (hk : (RunEnd.error k p i.toNat x).latched = true) (hkind : k ≠ .invalidFormat) :
    s.EndsWithin (n + 1) src (.error k p i.toNat x) := by
  obtain ⟨hpbc, hgbc⟩ := h.counts hp
  refine h.endsWithin_succ fun t ht hb => ht.endsWithin_of_showsEnd ?_
  rw [hb, hnext]
  exact Block.raise_showsEnd (absurd · hkind) (by simp [hk, hpbc]) (by simp [hk, hgbc])

/-- In DONE the phase is P_DONE and no error is recorded (R22, R41 (f), R162). -/
theorem Block.Legal.done_clean (h : b.Legal) (hd : b.state = .done) :
    b.phase = .done ∧ b.ecode = .none ∧ b.ephase = .none ∧ b.etile = 0 ∧ b.esrc = 0 := by
  have hphase : b.phase = .done := by
    have hstate : b.phase.runState = .done := h.state_of_phase.symm.trans hd
    generalize b.phase = p at hstate ⊢
    cases p <;> simp [Phase.runState] at hstate ⊢
  have hecode : b.ecode = .none := by
    by_contra hne
    exact nomatch hd.symm.trans (h.ecode_error.1 hne)
  have hephase : b.ephase = .none := by
    have hpair := h.errors_legal
    simpa [legalErrors, hecode] using hpair
  exact ⟨hphase, hecode, hephase, h.etile_zero (by simp [hephase]), h.esrc_zero (by simp [hecode])⟩

/-- In DONE the block shows its TILECOUNT tiles once they are published (R162). -/
theorem Block.Legal.showsEnd_done (h : b.Legal) (hd : b.state = .done)
    (hpub : b.Published src b.tilecount.toNat) (hpbc : b.pbc = src.image.byte 4)
    (hgbc : b.gbc = src.image.byte 5) : b.ShowsEnd src (.done b.tilecount.toNat) := by
  obtain ⟨hphase, hecode, hephase, hetile, hesrc⟩ := h.done_clean hd
  exact ⟨⟨hd, hphase, hecode, hephase, hetile, hesrc, rfl, fun i hi => hpbc ▸ (hpub i hi).2⟩, hpbc, hgbc⟩

/-- A run whose next phase step completes it (R162). -/
theorem State.RunsOver.endsWithin_done (h : s.RunsOver src) (hp : s.block.phase.inLoop = true)
    (hd : (src.nextBlock s.block).state = .done) (hpbc : (src.nextBlock s.block).pbc = s.block.pbc)
    (hgbc : (src.nextBlock s.block).gbc = s.block.gbc) :
    s.EndsWithin (n + 1) src (.done (src.nextBlock s.block).tilecount.toNat) := by
  have hbusy : s.block.state = .busy := h.inv.legal.busy_iff.2 (.inr hp)
  obtain ⟨hpbc', hgbc'⟩ := h.counts (Phase.countsLatched_of_inLoop hp)
  obtain ⟨t, ht, hb, hrun⟩ := h.step
  rw [← hb] at hd hpbc hgbc ⊢
  have hpub : t.block.Published src t.block.tilecount.toNat :=
    h.source ▸ donePublishesTheUnpackedSource s t h.inv ht hbusy hd
  have hshows := hrun.inv.legal.showsEnd_done hd hpub (hpbc.trans hpbc') (hgbc.trans hgbc')
  exact ⟨1, by omega, t, run_succ s t 0 ht, hshows.ended, hrun.source, hrun.rej, hshows⟩

/-- In P_TREAD a source that stalls nothing answers the read at POS (R160). -/
theorem Source.nextBlock_tread (hstall : src.stall = none) (hp : b.phase = .tread) (k : Nat) :
    src.nextBlock b = b.takeTile (src.readResponse (some (.tile b.tidx.toNat)) b.pos k) := by
  rw [Block.takeTile_readResponse]
  simp only [Source.nextBlock, hp, hstall]
  exact if_neg nofun

/-- The place in the source of the tile that P_TREAD reads (R41 (c)). -/
theorem State.RunsOver.pos_tread (h : s.RunsOver src) (hp : s.block.phase = .tread) :
    s.block.pos.toNat = regionBase (src.image.byte 4) + 16 * s.block.tidx.toNat := by
  obtain ⟨hpbc, -⟩ := h.counts (by rw [hp]; rfl)
  rw [← hpbc]
  exact h.inv.legal.pos_tread hp

/-- Cases 6 to 9 of R163: the read of the tile ends the run. -/
theorem State.RunsOver.endsWithin_endAtTile (h : s.RunsOver src) (hp : s.block.phase = .tread)
    (he : src.endAtTile s.block.tidx.toNat = some e) : s.EndsWithin (n + 1) src e := by
  have hcounts : s.block.phase.countsLatched = true := by rw [hp]; rfl
  have hnext := src.nextBlock_tread h.stall hp 0
  unfold Source.endAtTile at he
  rw [← h.pos_tread hp] at he
  split at he
  · cases he
    exact h.endsWithin_raise_latched hcounts (hnext.trans (Block.takeTile_failed ‹_›)) rfl nofun
  · have hfail : src.failCode (some (.tile s.block.tidx.toNat)) = none := ‹_›
    split at he
    · cases he
      exact h.endsWithin_raise_latched hcounts (hnext.trans (Block.takeTile_past hfail ‹_›)) rfl nofun
    · split at he
      · cases he
        rw [Block.takeTile_end hfail (Eq.symm ‹_›)] at hnext
        have hdone := h.endsWithin_done (n := n) (by rw [hp]; rfl) (by rw [hnext]; rfl) (by rw [hnext]; rfl)
          (by rw [hnext]; rfl)
        rwa [hnext] at hdone
      · split at he
        · cases he
          exact h.endsWithin_raise_latched hcounts
            (hnext.trans (Block.takeTile_short hfail (by omega) ‹_›)) rfl nofun
        · cases he

/-- A tile that ends nothing lies inside the source, and its read does not fail (R163). -/
theorem Source.endAtTile_none {i : Nat} (he : src.endAtTile i = none) :
    src.fail.code? (.tile i) = none ∧ regionBase (src.image.byte 4) + 16 * i + 16 ≤ src.image.len := by
  unfold Source.endAtTile at he
  split at he
  · cases he
  · split_ifs at he
    exact ⟨‹_›, by omega⟩

/-- The tile read in full (R163, the last line of its loop). -/
theorem State.RunsOver.nextBlock_of_no_end (h : s.RunsOver src) (hp : s.block.phase = .tread)
    (he : src.endAtTile s.block.tidx.toNat = none) :
    src.nextBlock s.block =
      { s.block with
        tbuf := src.image.bytes16 s.block.pos.toNat
        pos := s.block.pos + 16
        phase := .tdec } := by
  obtain ⟨hfail, hlen⟩ := Source.endAtTile_none he
  rw [← h.pos_tread hp] at hlen
  exact (src.nextBlock_tread h.stall hp 0).trans (Block.takeTile_full hfail hlen)

/-- TILE_DECODE ends the run after the last declared tile (case 10 of R163), and else the run goes on with the next
tile. -/
theorem State.RunsOver.endsWithin_tdec (h : s.RunsOver src) (hp : s.block.phase = .tdec)
    (hn : s.block.tidx.toNat + 1 + n = 512 * (src.image.byte 5).toNat)
    (htread : ∀ t : State, t.RunsOver src → t.block.phase = .tread →
      t.block.tidx.toNat = s.block.tidx.toNat + 1 →
      t.EndsWithin (2 * n) src (src.endFromTile n (s.block.tidx.toNat + 1))) :
    s.EndsWithin (2 * n + 1) src (src.endFromTile n (s.block.tidx.toNat + 1)) := by
  have hlegal := h.inv.legal.withStored (h.inv.legal.tidx_exists hp) (entry s.block.tbuf)
  have hnext : src.nextBlock s.block =
      Block.advanceTile { s.block with ts := s.block.ts.write s.block.tidx.toNat (entry s.block.tbuf) } := by
    simp only [Source.nextBlock, hp]
  obtain ⟨-, hgbc⟩ := h.counts (by rw [hp]; rfl)
  obtain ⟨htidx, bank, tib, -, ⟨-, hgoesOn⟩ | ⟨-, -, hcompletes⟩⟩ := hlegal.advanceTile_cases hp
  · rw [hgoesOn] at hnext
    exact h.endsWithin_succ fun t ht hb =>
      htread t ht (by rw [hb, hnext]) (by rw [hb, hnext]; exact htidx)
  · have hd := congrArg Block.state hcompletes
    obtain ⟨hcount, hlast, hpbc, hgbc'⟩ := hlegal.advanceTile_done hp hd
    rw [← hnext] at hd hcount hpbc hgbc'
    have hn0 : n = 0 := by
      rw [← hgbc] at hn
      dsimp only at hlast
      omega
    have hdone := h.endsWithin_done (n := 2 * n) (by rw [hp]; rfl) hd hpbc hgbc'
    rw [hcount] at hdone
    rw [hn0] at hdone ⊢
    exact hdone

/-- The tile loop from P_TREAD on, by induction on the declared tiles that are left (R161). -/
theorem State.RunsOver.endsWithin_tread (h : s.RunsOver src) (hp : s.block.phase = .tread)
    (hn : s.block.tidx.toNat + n = 512 * (src.image.byte 5).toNat) :
    s.EndsWithin (2 * n) src (src.endFromTile n s.block.tidx.toNat) := by
  induction n generalizing s with
  | zero =>
    obtain ⟨-, hgbc⟩ := h.counts (by rw [hp]; rfl)
    obtain ⟨-, -, hidx⟩ := h.inv.legal.loop_bound (by rw [hp]; rfl)
    rw [hgbc] at hidx
    omega
  | succ n ih =>
    unfold Source.endFromTile
    split
    · exact h.endsWithin_endAtTile hp ‹_›
    · have hnext := h.nextBlock_of_no_end hp ‹_›
      refine h.endsWithin_succ (n := 2 * n + 1) fun t ht hb => ?_
      rw [hnext] at hb
      have htidx : t.block.tidx = s.block.tidx := by rw [hb]
      rw [← htidx] at hn ⊢
      refine ht.endsWithin_tdec (by rw [hb]) (by omega) fun w hw hwp hwt => ?_
      exact hwt ▸ ih hw hwp (by omega)

/-- Cases 5 to 10 of R163, from P_SEEK on. -/
theorem State.RunsOver.endsWithin_seek (h : s.RunsOver src) (hp : s.block.phase = .seek) :
    s.EndsWithin (2 * (512 * (src.image.byte 5).toNat) + 1) src src.endFromSeek := by
  obtain ⟨htidx, -⟩ := h.inv.legal.loop_zero (by rw [hp]; rfl)
  have hnext : src.nextBlock s.block =
      s.block.takeSeek (gfxBase s.block.pbc) (src.seekResponse (some .seek)) := by
    rw [Block.takeSeek_seekResponse]
    simp only [Source.nextBlock, hp, h.stall]
    exact if_neg nofun
  unfold Source.endFromSeek
  split
  · exact h.endsWithin_raise_latched (i := 0) (by rw [hp]; rfl) (hnext.trans (Block.takeSeek_failed ‹_›)) rfl nofun
  · rw [Block.takeSeek_moves ‹_›] at hnext
    refine h.endsWithin_succ fun t ht hb => ?_
    rw [hnext] at hb
    have htidx' : t.block.tidx.toNat = 0 := by
      rw [hb]
      simp [htidx]
    exact htidx' ▸ ht.endsWithin_tread (by rw [hb]) (by omega)

/-- Cases 4 to 10 of R163, from P_COUNTS on. -/
theorem State.RunsOver.endsWithin_gfxchk (h : s.RunsOver src) (hp : s.block.phase = .gfxchk) :
    s.EndsWithin (2 * (512 * (src.image.byte 5).toNat) + 2) src src.endFromCounts := by
  have hcounts : s.block.phase.countsLatched = true := by rw [hp]; rfl
  obtain ⟨-, hgbc⟩ := h.counts hcounts
  unfold Source.endFromCounts
  split
  case isTrue hzero =>
    have hnext : src.nextBlock s.block = s.block.raise .unsupportedGraphicsStorage .none 0 0 := by
      simp only [Source.nextBlock, hp, hgbc, hzero, if_true]
    exact h.endsWithin_raise_latched (i := 0) hcounts hnext rfl nofun
  case isFalse hzero =>
    have hnext : src.nextBlock s.block = { s.block with phase := .seek } := by
      simp only [Source.nextBlock, hp, hgbc, hzero, if_false]
    exact h.endsWithin_succ fun t ht hb => ht.endsWithin_seek (by rw [hb, hnext])

/-- COUNT_LATCH always goes on (R142). -/
theorem State.RunsOver.endsWithin_counts (h : s.RunsOver src) (hp : s.block.phase = .counts) :
    s.EndsWithin (2 * (512 * (src.image.byte 5).toNat) + 3) src src.endFromCounts :=
  h.endsWithin_succ fun t ht hb => ht.endsWithin_gfxchk (by rw [hb]; simp only [Source.nextBlock, hp])

/-- The comparison of R91 on a header read from the source. -/
theorem Image.magicMatches_bytes16 (img : Image) : magicMatches (img.bytes16 0) = img.hasMagic := by
  simp [magicMatches, Config.magic, Image.bytes16, Image.hasMagic]

/-- Cases 3 to 10 of R163, from P_MAGIC on. -/
theorem State.RunsOver.endsWithin_magic (h : s.RunsOver src) (hp : s.block.phase = .magic) :
    s.EndsWithin (2 * (512 * (src.image.byte 5).toNat) + 4) src src.endFromMagic := by
  have hhdr : s.block.hdr = src.image.bytes16 0 := h.source ▸ (h.inv.data.header (.inl (by rw [hp]; rfl))).2
  have hmatch : magicMatches s.block.hdr = src.image.hasMagic := by rw [hhdr, Image.magicMatches_bytes16]
  unfold Source.endFromMagic
  split
  case isTrue hmagic =>
    have hnext : src.nextBlock s.block = s.block.raise .invalidFormat .none 0 0 := by
      simp only [Source.nextBlock, hp, hmatch, hmagic, Bool.false_eq_true, if_false]
    exact h.endsWithin_raise_unlatched (.inr hp) hnext rfl fun _ => hhdr
  case isFalse hmagic =>
    have hnext : src.nextBlock s.block = { s.block with phase := .counts } := by
      simp only [Source.nextBlock, hp, hmatch, eq_true_of_ne_false hmagic, if_true]
    exact h.endsWithin_succ fun t ht hb => ht.endsWithin_counts (by rw [hb, hnext])

/-- All cases of R163, from P_HDR on. -/
theorem State.RunsOver.endsWithin_hdr (h : s.RunsOver src) (hp : s.block.phase = .hdr) :
    s.EndsWithin (2 * (512 * (src.image.byte 5).toNat) + 5) src src.runEnd := by
  have hpos : s.block.pos = 0 := h.inv.legal.pos_hdr hp
  have hnext : src.nextBlock s.block = s.block.takeHeader (src.readResponse (some .hdr) 0 0) := by
    rw [Block.takeHeader_readResponse]
    simp only [Source.nextBlock, hp, h.stall, hpos]
    exact if_neg nofun
  cases hfail : src.failCode (some .hdr) with
  | some c =>
    rw [Source.runEnd_failed hfail]
    exact h.endsWithin_raise_unlatched (.inl hp) (hnext.trans (Block.takeHeader_failed hfail)) rfl nofun
  | none =>
    by_cases hlen : 16 ≤ src.image.len
    · rw [Source.runEnd_full hfail hlen]
      rw [Block.takeHeader_full hfail (by simpa using hlen)] at hnext
      exact h.endsWithin_succ fun t ht hb => ht.endsWithin_magic (by rw [hb, hnext])
    · rw [Source.runEnd_short hfail hlen]
      exact h.endsWithin_raise_unlatched (.inl hp)
        (hnext.trans (Block.takeHeader_short hfail (by simpa using hlen))) rfl nofun

/-- Settles O27: START leads to P_HDR, and from there the run ends as R163 says. -/
theorem runEndsAsTheSourceSays : Obligations.RunEndsAsTheSourceSays := by
  intro s v hinv hstate hstall hin hv
  have hstart := step_startNext hin hv hstate
  have hrun : (s.consumed.quiet.withBlock s.block.startRun).RunsOver s.source :=
    { inv := everyStepKeepsTheInvariant s _ hinv hstart
      source := rfl
      inputs := by simp [hin]
      stall := hstall
      rej := rfl }
  obtain ⟨m, hm, t, ht, hend⟩ := hrun.endsWithin_hdr rfl
  exact ⟨m + 1, by omega, by omega, t, (run_succ s _ m hstart).trans ht, hend⟩

end Sys2Proof.Machine
end

section
/-!
The tile unpacker (spec/44_tile_unpack.md): the bits of a row word, of an entry and of an encoding, the inverses of
`unpack` and of `entry`, and the two operations TILE_DECODE and UNPACK.
-/

namespace Sys2Proof.Machine

/-! ### Row words and entries, bit by bit -/

/-- The bits of a field are bits of the word. -/
theorem getLsbD_of_extract {w n s k : Nat} {x : BitVec w} {y : BitVec n} (h : x.extractLsb' s n = y) (hk : k < n) :
    x.getLsbD (s + k) = y.getLsbD k := by
  simp [← h, hk]

/-- Words are equal when the equal-width fields they consist of are. -/
theorem eq_of_fields {w n m : Nat} {x y : BitVec w} (hn : 0 < n) (hw : w = n * m)
    (h : ∀ q < m, x.extractLsb' (n * q) n = y.extractLsb' (n * q) n) : x = y := by
  apply BitVec.eq_of_getLsbD_eq
  intro p hp
  have hq : p / n < m := Nat.div_lt_of_lt_mul (hw ▸ hp)
  have hk : p % n < n := Nat.mod_lt p hn
  have hbit := congrArg (·.getLsbD (p % n)) (h (p / n) hq)
  simpa only [BitVec.getLsbD_extractLsb', Nat.div_add_mod, hk, decide_true, Bool.true_and] using hbit

/-- Settles O29: the high bit of the pixel weighs 2. -/
theorem pixelIsBitAPlusTwiceBitB : Obligations.PixelIsBitAPlusTwiceBitB := by
  intro b i c
  have hweights : ∀ lo hi : Bool, (BitVec.ofBool hi ++ BitVec.ofBool lo).toNat = lo.toNat + 2 * hi.toNat := by decide
  exact hweights _ _

/-- Bits `2j` and `2j + 1` of a row word are the pixel of column `7 − j` (R95). -/
theorem packRow_bit (r : Vector (BitVec 2) 8) (j : Fin 8) {k : Nat} (hk : k < 2) :
    (packRow r).getLsbD (2 * j.val + k) = (r[7 - j.val]).getLsbD k := by
  have hpos : 2 * j.val = 14 - 2 * (7 - j.val) := by omega
  rw [hpos]
  exact getLsbD_of_extract (packRow_pixel r ⟨7 - j.val, by omega⟩) hk

/-- Column `7 − j` of a row takes its low bit from bit `j` of plane A's byte (R181). -/
theorem unpackTile_low (b : Bytes16) (i j : Fin 8) :
    ((unpackTile b)[i.val][7 - j.val]).getLsbD 0 = (b[i.val]).getLsbD j.val := by
  have hj : 7 - (7 - j.val) = j.val := by omega
  rw [unpackTile_pixel b i ⟨7 - j.val, by omega⟩, pixel_low, hj]

/-- Column `7 − j` of a row takes its high bit from bit `j` of plane B's byte (R181). -/
theorem unpackTile_high (b : Bytes16) (i j : Fin 8) :
    ((unpackTile b)[i.val][7 - j.val]).getLsbD 1 = (b[i.val + 8]).getLsbD j.val := by
  have hj : 7 - (7 - j.val) = j.val := by omega
  rw [unpackTile_pixel b i ⟨7 - j.val, by omega⟩, pixel_high, hj]

/-- Plane A is in the even bits of the row word (R182). -/
theorem rowword_even (b : Bytes16) (i j : Fin 8) : (rowword b i).getLsbD (2 * j.val) = (b[i.val]).getLsbD j.val :=
  (packRow_bit _ j (k := 0) (by decide)).trans (unpackTile_low b i j)

/-- Plane B is in the odd bits of the row word (R182). -/
theorem rowword_odd (b : Bytes16) (i j : Fin 8) :
    (rowword b i).getLsbD (2 * j.val + 1) = (b[i.val + 8]).getLsbD j.val :=
  (packRow_bit _ j (by decide)).trans (unpackTile_high b i j)

/-- The row words of an entry are those of the tile (R182). -/
theorem entry_row (b : Bytes16) (i : Fin 8) : (entry b).extractLsb' (16 * i.val) 16 = rowword b i :=
  packGrid_row (unpackTile b) i

/-- Bit `m` of row `i`'s row word is bit `16i + m` of the entry (R182). -/
theorem entry_bit (b : Bytes16) (i : Fin 8) {m : Nat} (hm : m < 16) :
    (entry b).getLsbD (16 * i.val + m) = (rowword b i).getLsbD m :=
  getLsbD_of_extract (entry_row b i) hm

/-- Settles O30: a row word is a packed row, and its bits are those of the two plane bytes. -/
theorem entryInterleavesThePlanes : Obligations.EntryInterleavesThePlanes := by
  intro b i j
  have hpixel : (rowword b i).extractLsb' (14 - 2 * j.val) 2 = pixel b i j :=
    (packRow_pixel _ j).trans (unpackTile_pixel b i j)
  exact ⟨hpixel, rowword_odd b i j, rowword_even b i j, entry_row b i⟩

/-! ### encode, and the inverses of unpack and entry -/

/-- Plane A's bytes of an encoding (R188). -/
theorem encodeTile_low (g : Grid) (i : Fin 8) : (encodeTile g)[i.val] = planeByte g[i.val] 0 := by
  simp [encodeTile]

/-- Plane B's bytes of an encoding (R188). -/
theorem encodeTile_high (g : Grid) (i : Fin 8) : (encodeTile g)[i.val + 8] = planeByte g[i.val] 1 := by
  simp [encodeTile]

/-- Bit `7 − c` of a plane byte is a bit of the pixel in column `c` (R188). -/
theorem planeByte_column (r : Vector (BitVec 2) 8) (k : Nat) (c : Fin 8) :
    (planeByte r k).getLsbD (7 - c.val) = (r[c.val]).getLsbD k := by
  have hc : 7 - (7 - c.val) = c.val := by omega
  have hbit := planeByte_bit r k ⟨7 - c.val, by omega⟩
  simpa only [hc] using hbit

/-- A pixel is its two bits. -/
theorem eq_of_two_bits {x y : BitVec 2} (h0 : x.getLsbD 0 = y.getLsbD 0) (h1 : x.getLsbD 1 = y.getLsbD 1) : x = y := by
  apply BitVec.eq_of_getLsbD_eq
  intro k hk
  obtain rfl | rfl : k = 0 ∨ k = 1 := by omega
  · exact h0
  · exact h1

/-- Two grids are equal when their pixels are. -/
theorem Grid.ext_pixel {g h : Grid} (hp : ∀ i c : Fin 8, g[i.val][c.val] = h[i.val][c.val]) : g = h :=
  Vector.ext fun i hi => Vector.ext fun c hc => hp ⟨i, hi⟩ ⟨c, hc⟩

/-- The pixel of an encoding is the grid's (R181, R188). -/
theorem pixel_encodeTile (g : Grid) (i c : Fin 8) : pixel (encodeTile g) i c = g[i.val][c.val] := by
  apply eq_of_two_bits
  · rw [pixel_low, encodeTile_low, planeByte_column]
  · rw [pixel_high, encodeTile_high, planeByte_column]

/-- `unpack(encode(G)) = G` (R188). -/
theorem unpackTile_encodeTile (g : Grid) : unpackTile (encodeTile g) = g :=
  Grid.ext_pixel fun i c => (unpackTile_pixel _ i c).trans (pixel_encodeTile g i c)

/-- `encode(unpack(B)) = B` (R188). -/
theorem encodeTile_unpackTile (b : Bytes16) : encodeTile (unpackTile b) = b := by
  have hlow (i : Fin 8) : (encodeTile (unpackTile b))[i.val] = b[i.val] := by
    apply BitVec.eq_of_getLsbD_eq
    intro j hj
    rw [encodeTile_low, planeByte_bit _ _ ⟨j, hj⟩, unpackTile_low]
  have hhigh (i : Fin 8) : (encodeTile (unpackTile b))[i.val + 8] = b[i.val + 8] := by
    apply BitVec.eq_of_getLsbD_eq
    intro j hj
    rw [encodeTile_high, planeByte_bit _ _ ⟨j, hj⟩, unpackTile_high]
  apply Vector.ext
  intro m hm
  by_cases hplane : m < 8
  · exact hlow ⟨m, hplane⟩
  · obtain ⟨i, rfl⟩ := Nat.exists_eq_add_of_le' (Nat.le_of_not_lt hplane)
    exact hhigh ⟨i, by omega⟩

/-- Settles O31: the bits are those of the plane bytes, and the inverse laws hold pixel by pixel and byte by byte. -/
theorem unpackAndEncodeAreInverse : Obligations.UnpackAndEncodeAreInverse := by
  refine ⟨fun g i c => ⟨?_, ?_⟩, unpackTile_encodeTile, encodeTile_unpackTile⟩
  · rw [encodeTile_low, planeByte_column]
  · rw [encodeTile_high, planeByte_column]

/-- The grid that an entry packs: the inverse of `packGrid` (R95, R96). -/
def gridOfEntry (e : Entry) : Grid :=
  Vector.ofFn fun i : Fin 8 => Vector.ofFn fun c : Fin 8 =>
    (e.extractLsb' (16 * i.val) 16).extractLsb' (14 - 2 * c.val) 2

theorem gridOfEntry_pixel (e : Entry) (i c : Fin 8) :
    (gridOfEntry e)[i.val][c.val] = (e.extractLsb' (16 * i.val) 16).extractLsb' (14 - 2 * c.val) 2 := by
  simp [gridOfEntry]

theorem gridOfEntry_packGrid (g : Grid) : gridOfEntry (packGrid g) = g :=
  Grid.ext_pixel fun i c => by rw [gridOfEntry_pixel, packGrid_row, packRow_pixel]

theorem packGrid_gridOfEntry (e : Entry) : packGrid (gridOfEntry e) = e := by
  refine eq_of_fields (n := 16) (m := 8) (by decide) rfl fun i hi => ?_
  rw [packGrid_row _ ⟨i, hi⟩]
  refine eq_of_fields (n := 2) (m := 8) (by decide) rfl fun j hj => ?_
  have hpos : 2 * j = 14 - 2 * (7 - j) := by omega
  rw [hpos, packRow_pixel _ ⟨7 - j, by omega⟩, gridOfEntry_pixel _ ⟨i, hi⟩ ⟨7 - j, by omega⟩]

/-- Settles O32: `encode` inverts `unpack`, and `entry` packs the grid into distinct fields that fill the entry. -/
theorem unpackIsABijection : Obligations.UnpackIsABijection := by
  have hunpack : Function.Bijective unpackTile :=
    Function.bijective_iff_has_inverse.2 ⟨encodeTile, encodeTile_unpackTile, unpackTile_encodeTile⟩
  have hpack : Function.Bijective packGrid :=
    Function.bijective_iff_has_inverse.2 ⟨gridOfEntry, gridOfEntry_packGrid, packGrid_gridOfEntry⟩
  exact ⟨hunpack, hpack.comp hunpack⟩

/-- Settles O33: the worked vector is evaluated. -/
theorem knownVectorDecodesAsGiven : Obligations.KnownVectorDecodesAsGiven := by
  unfold Obligations.KnownVectorDecodesAsGiven
  decide

/-! ### TILE_DECODE and UNPACK -/

variable (b : Block)

/-- Inside a bank the loop goes on to the next tile (R184). -/
theorem Block.advanceTile_sameBank (h : b.tib ≠ 511) :
    b.advanceTile = { b with tidx := b.tidx + 1, tib := b.tib + 1, phase := .tread } :=
  if_neg h

/-- After a bank that is not the last the loop goes on to the next bank (R184). -/
theorem Block.advanceTile_nextBank (h : b.tib = 511) (hb : b.bank.toNat + 1 ≠ b.gbc.toNat) :
    b.advanceTile = { b with tidx := b.tidx + 1, tib := 0, bank := b.bank + 1, phase := .tread } :=
  (if_pos h).trans (if_neg hb)

/-- After the last bank the run completes (R162, R184). -/
theorem Block.advanceTile_lastBank (h : b.tib = 511) (hb : b.bank.toNat + 1 = b.gbc.toNat) :
    b.advanceTile = { b.complete (b.tidx + 1) with tidx := b.tidx + 1, tib := 0, bank := b.bank + 1 } :=
  (if_pos h).trans (if_pos hb)

/-- Settles O34: the store is the memory's write law, and the loop control moves as its three cases say. -/
theorem tileDecodeStoresAndAdvances : Obligations.TileDecodeStoresAndAdvances := by
  intro s hidx hts
  have hread (k : Nat) := Memory.read_write s.block.ts s.block.tidx.toNat k (entry s.block.tbuf) hts
  obtain ⟨hsame, hquiet⟩ := s.quiet_withBlock_frame
    (Block.advanceTile { s.block with ts := s.block.ts.write s.block.tidx.toNat (entry s.block.tbuf) })
  refine ⟨_, execTileDecode_exists s hidx, hsame, hquiet, ?_, fun k hk => ?_, fun h => ?_, fun h hb => ?_,
    fun h hb => ?_⟩
  · rw [State.withBlock_block, Block.advanceTile_ts, hread, if_pos rfl]
  · rw [State.withBlock_block, Block.advanceTile_ts, hread, if_neg hk.symm]
  · rw [State.withBlock_block, Block.advanceTile_ts]
    exact Block.advanceTile_sameBank _ h
  · rw [State.withBlock_block, Block.advanceTile_ts]
    exact Block.advanceTile_nextBank _ h hb
  · rw [State.withBlock_block, Block.advanceTile_ts]
    exact Block.advanceTile_lastBank _ h hb

/-- A bit of a byte lane of the 128-bit bus (R101). -/
theorem bytesOfBus_bit (x : BitVec 128) (m : Fin 16) (j : Fin 8) :
    ((bytesOfBus x)[m.val]).getLsbD j.val = x.getLsbD (8 * m.val + j.val) := by
  rw [bytesOfBus_lane, BitVec.getLsbD_extractLsb', decide_eq_true j.isLt, Bool.true_and]

/-- Settles O35: the output is the entry of the input's bytes, so its bits are those of the byte lanes. -/
theorem unpackPortAnswersLaneByLane : Obligations.UnpackPortAnswersLaneByLane := by
  intro x s
  refine ⟨_, rfl, rfl, fun i j => ⟨?_, ?_⟩, rfl, rfl, rfl, rfl, rfl, rfl, rfl⟩
  · calc (entry (bytesOfBus x)).getLsbD (16 * i.val + 2 * j.val)
      _ = (rowword (bytesOfBus x) i).getLsbD (2 * j.val) := entry_bit _ i (by omega)
      _ = ((bytesOfBus x)[i.val]).getLsbD j.val := rowword_even _ i j
      _ = x.getLsbD (8 * i.val + j.val) := bytesOfBus_bit x ⟨i.val, by omega⟩ j
  · calc (entry (bytesOfBus x)).getLsbD (16 * i.val + (2 * j.val + 1))
      _ = (rowword (bytesOfBus x) i).getLsbD (2 * j.val + 1) := entry_bit _ i (by omega)
      _ = ((bytesOfBus x)[i.val + 8]).getLsbD j.val := rowword_odd _ i j
      _ = x.getLsbD (8 * (i.val + 8) + j.val) := bytesOfBus_bit x ⟨i.val + 8, by omega⟩ j

end Sys2Proof.Machine
end

section
/-!
Errors (spec/60_exceptions.md): the steps that enter one, what the block shows in it, and the steps that leave it.
-/

namespace Sys2Proof.Machine

variable {b c : Block} {src : Source}

/-- The seven rows of the error table (R200): the phase that raises the error, and the record it writes. -/
def Block.ErrorRow (b : Block) (src : Source) (k : ErrorKind) (p : ErrorPhase) (tile : TileIdx) (code : Byte) :
    Prop :=
  (b.phase = .hdr ∧ k = .truncatedInput ∧ p = .headerRead ∧ tile = 0 ∧ code = 0) ∨
    (b.phase = .hdr ∧ k = .sourceFailure ∧ p = .headerRead ∧ tile = 0 ∧ src.fail.hdr = some code) ∨
    (b.phase = .magic ∧ k = .invalidFormat ∧ p = .none ∧ tile = 0 ∧ code = 0) ∨
    (b.phase = .gfxchk ∧ k = .unsupportedGraphicsStorage ∧ p = .none ∧ tile = 0 ∧ code = 0) ∨
    (b.phase = .seek ∧ k = .sourceFailure ∧ p = .seek ∧ tile = 0 ∧ src.fail.seek = some code) ∨
    (b.phase = .tread ∧ k = .truncatedInput ∧ p = .tileRead ∧ tile = b.tidx ∧ code = 0) ∨
    (b.phase = .tread ∧ k = .sourceFailure ∧ p = .tileRead ∧ tile = b.tidx ∧
      src.fail.code? (.tile b.tidx.toNat) = some code)

/-- Error entry by one of the rows: the record of the row is written and all else kept (R210). -/
def Block.EntersError (b : Block) (src : Source) (c : Block) : Prop :=
  ∃ k p tile code, c = b.withError k p tile code ∧ b.ErrorRow src k p tile code

/-- An error raised with the record of a row enters by that row (R210). -/
theorem Block.ErrorRow.enters {k : ErrorKind} {p : ErrorPhase} {tile : TileIdx} {code : Byte}
    (h : b.ErrorRow src k p tile code) : b.EntersError src (b.raise k p tile code) :=
  ⟨k, p, tile, code, rfl, h⟩

/-- The loop control keeps STATE or completes the run (R184). -/
theorem Block.advanceTile_state : b.advanceTile.state = b.state ∨ b.advanceTile.state = .done := by
  unfold Block.advanceTile
  split
  · split
    · exact .inr rfl
    · exact .inl rfl
  · exact .inl rfl

/-- A phase step that takes a block to ERROR enters it by a row of the table (R200, R210). -/
theorem Block.PhaseStep.to_error (hs : Block.PhaseStep src b c) (hb : b.state ≠ .error)
    (hc : c.state = .error) : b.EntersError src c := by
  cases hs with
  | wait | counts => exact absurd hc hb
  | header h =>
    revert hc
    split
    · exact fun _ => Block.ErrorRow.enters (.inr (.inl ⟨h, rfl, rfl, rfl, ‹_›⟩))
    · split
      · exact fun hc => absurd hc hb
      · exact fun _ => Block.ErrorRow.enters (.inl ⟨h, rfl, rfl, rfl, rfl⟩)
  | magic h =>
    revert hc
    split
    · exact fun hc => absurd hc hb
    · exact fun _ => Block.ErrorRow.enters (.inr (.inr (.inl ⟨h, rfl, rfl, rfl, rfl⟩)))
  | gfx h =>
    revert hc
    split
    · exact fun _ => Block.ErrorRow.enters (.inr (.inr (.inr (.inl ⟨h, rfl, rfl, rfl, rfl⟩))))
    · exact fun hc => absurd hc hb
  | seek h =>
    revert hc
    split
    · exact fun _ => Block.ErrorRow.enters (.inr (.inr (.inr (.inr (.inl ⟨h, rfl, rfl, rfl, ‹_›⟩)))))
    · exact fun hc => absurd hc hb
  | tile h =>
    have htruncated : b.ErrorRow src .truncatedInput .tileRead b.tidx 0 :=
      .inr (.inr (.inr (.inr (.inr (.inl ⟨h, rfl, rfl, rfl, rfl⟩)))))
    revert hc
    split
    · exact fun _ => Block.ErrorRow.enters (.inr (.inr (.inr (.inr (.inr (.inr ⟨h, rfl, rfl, rfl, ‹_›⟩))))))
    · split
      · exact fun _ => htruncated.enters
      · split
        · exact fun hc => absurd hc hb
        · split
          · nofun
          · exact fun _ => htruncated.enters
  | decode =>
    obtain e | e := Block.advanceTile_state (b := { b with ts := b.ts.write b.tidx.toNat (entry b.tbuf) })
    · exact absurd (e.symm.trans hc) hb
    · cases e.symm.trans hc

/-- No input raises an error: START begins a run, reset ends in IDLE, and every other input keeps STATE. -/
theorem Block.after_not_error (hb : b.state ≠ .error) (x : Input) : (b.after x).state ≠ .error := by
  obtain ⟨e, -⟩ | ⟨e, -⟩ | e := b.after_cases x <;> rw [e]
  · nofun
  · nofun
  · exact hb

/-- Settles O41: only a phase step takes a BUSY block to ERROR, and it enters by a row of the table. -/
theorem errorEntryRecordsTheFailingStep : Obligations.ErrorEntryRecordsTheFailingStep := by
  intro s t h hbusy herror
  have hb : s.block.state ≠ .error := by simp [hbusy]
  obtain ⟨-, ⟨-, hphase, -⟩ | ⟨x, -, -, hafter, -⟩⟩ := step_next s t h
  · exact hphase.to_error hb herror
  · exact absurd (hafter ▸ herror) (Block.after_not_error hb x)

/-- In P_ERROR the block waits (R104, R212). -/
theorem Block.PhaseStep.of_error (hs : Block.PhaseStep src b c) (hp : b.phase = .error) : c = b := by
  cases hs with
  | wait => rfl
  | header h | magic h | counts h | gfx h | seek h | tile h | decode h => cases h.symm.trans hp

/-- Settles O43: in ERROR the sequencer waits, and an input that is neither START nor reset changes only REJ and
TSEL. -/
theorem errorIsLeftOnlyByStartOrReset : Obligations.ErrorIsLeftOnlyByStartOrReset := by
  intro s t h _ hp
  obtain ⟨-, ⟨-, hphase, -⟩ | ⟨x, hx, -, hafter, -⟩⟩ := step_next s t h
  · rw [hphase.of_error hp]
    exact .inl rfl
  · rw [hafter]
    obtain ⟨e, -, v, rfl, hv⟩ | ⟨e, rfl⟩ | e := s.block.after_cases x
    · rw [e]
      exact .inr (.inl ⟨⟨v, hx, hv⟩, rfl, rfl, rfl, rfl, rfl, rfl, rfl⟩)
    · rw [e]
      exact .inr (.inr ⟨hx, rfl, rfl, rfl⟩)
    · exact .inl e

/-- Settles O42: TILECOUNT is 0 outside DONE, where the gate of TROW is closed for every selection. -/
theorem errorShowsNoTile : Obligations.ErrorShowsNoTile := by
  intro s sel hinv herror
  have hdone : s.block.state ≠ .done := by simp [herror]
  have hcount : s.block.tilecount = 0 := hinv.legal.tilecount_zero hdone
  exact ⟨congrArg (fun n : TileIdx => some (n.setWidth 32)) hcount, Block.trow_gated _ fun hg => hdone hg.1⟩

end Sys2Proof.Machine
end

section
/-!
Waiting, a held request and attaching a source (spec/70_reset_and_hazards.md): the steps that leave the block where
it is, however often they are taken.
-/

namespace Sys2Proof.Machine

variable {s t : State} {acc : Access} {q : SrcRequest}

/-- The phase step whose access the source stalls holds its request and does nothing else (R247). -/
theorem phaseStep_stalled (hreq : s.block.request? = some (acc, q)) (hstall : s.source.stall = some acc) :
    phaseStep s = .next (s.holdRequest q) := by
  obtain ⟨hp, rfl, rfl⟩ | ⟨hp, rfl, rfl⟩ | ⟨hp, rfl, rfl⟩ := Block.request?_cases hreq
  · exact (phaseStep_eq_exec (i := .hdrRead) (by rw [hp]; rfl)).trans (execHdrRead_stalled s hstall)
  · exact (phaseStep_eq_exec (i := .tileRead) (by rw [hp]; rfl)).trans (execTileRead_stalled s hstall)
  · exact (phaseStep_eq_exec (i := .bankSeek) (by rw [hp]; rfl)).trans (execBankSeek_stalled s hstall)

/-- The phases outside a run (R22). -/
theorem Phase.cases_of_not_busy {p : Phase} (h : p.runState ≠ .busy) : p = .idle ∨ p = .done ∨ p = .error := by
  revert h
  cases p <;> decide

/-- Outside a run the sequencer's turn only ends what the ports showed (R104, R231). -/
theorem phaseStep_waits (h : s.block.phase.runState ≠ .busy) : phaseStep s = .next s.quiet := by
  unfold phaseStep
  obtain hp | hp | hp := Phase.cases_of_not_busy h <;> rw [hp] <;> rfl

/-- A run whose first step leads to a state that steps to itself stays there. -/
theorem run_of_step_fixed (h : step s = .next t) (hfix : step t = .next t) (n : Nat) :
    Sys2Proof.core.run (n + 1) s = .next t := by
  rw [run_succ s t n h]
  induction n with
  | zero => rfl
  | succ n ih => rw [run_succ t t n hfix, ih]

/-- Settles O39: the stalled step holds the request, and the state it leads to steps to itself. -/
theorem stalledSourceHoldsThePhaseForever : Obligations.StalledSourceHoldsThePhaseForever := by
  intro s acc q hin hreq hstall n
  have hstep : step s = .next (s.holdRequest q) := (step_phaseStep s hin).trans (phaseStep_stalled hreq hstall)
  have hfix : step (s.holdRequest q) = .next (s.holdRequest q) :=
    (step_phaseStep (s.holdRequest q) hin).trans (phaseStep_stalled hreq hstall)
  exact ⟨s.holdRequest q, run_of_step_fixed hstep hfix n, rfl, rfl, rfl, rfl⟩

/-- Settles O47: waiting only ends what the ports showed, and the state it leads to steps to itself. -/
theorem idleBlockWaits : Obligations.IdleBlockWaits := by
  intro s hin hphase n
  have hstep : step s = .next s.quiet := (step_phaseStep s hin).trans (phaseStep_waits hphase)
  have hfix : step s.quiet = .next s.quiet := (step_phaseStep s.quiet hin).trans (phaseStep_waits hphase)
  exact ⟨s.quiet, run_of_step_fixed hstep hfix n, rfl, rfl, rfl, rfl⟩

/-- In the invariant a held request is the one its phase presents, of a source that stalls it, in a run (R247). -/
theorem State.Inv.of_held (h : s.Inv) (hq : s.ports.srcPending = some q) :
    s.sourceInUse = true ∧ s.block.state = .busy ∧
      ∃ acc, s.block.request? = some (acc, q) ∧ s.source.stall = some acc := by
  have huse : s.sourceInUse = true := State.sourceInUse_true.2 (.inr (by rw [hq]; nofun))
  obtain ⟨acc, hreq, hstall⟩ := h.ports.pending q hq
  exact ⟨huse, h.busy_of_sourceInUse huse, acc, hreq, (s.source.stalls_some acc).1 hstall⟩

/-- Settles O57: the sequencer's turn holds the request again; every other step but reset keeps it, for the port
is in use, and a BUSY block accepts no START and no source. -/
theorem heldRequestFallsOnlyAtReset : Obligations.HeldRequestFallsOnlyAtReset := by
  intro s t q hinv hq h hreset
  obtain ⟨huse, hbusy, acc, hreq, hstall⟩ := hinv.of_held hq
  by_cases hseq : s.SequencerNext
  · rw [step_sequencer s hseq, phaseStep_stalled (s := s.consumed) hreq hstall] at h
    cases h
    exact ⟨rfl, rfl, rfl, rfl⟩
  · obtain ⟨hkeep, hquiet⟩ : t.ports.srcPending = some q ∧ t.ports.srcDone = none := by
      cases step_portStep h with
      | phase hn => exact absurd hn hseq
      | kept hdone hpend => exact ⟨hpend.trans hq, hdone⟩
      | reset hx => exact absurd hx hreset
      | lone hfree => cases huse.symm.trans hfree
    obtain ⟨-, ⟨hn, -⟩ | ⟨x, hx, -, hblock, -, hsource⟩⟩ := step_next s t h
    · exact absurd hn hseq
    · refine ⟨hkeep, hquiet, hsource hbusy, ?_⟩
      obtain ⟨-, hn, -⟩ | ⟨-, rfl⟩ | e := s.block.after_cases x
      · exact absurd hbusy hn
      · exact absurd hx hreset
      · rw [hblock]
        exact e

/-- Settles O52: outside a run the attach step takes its one branch that answers. -/
theorem attachReplacesOnlyTheSource : Obligations.AttachReplacesOnlyTheSource := by
  intro s src rest hin hbusy
  exact ⟨_, (step_cons s rest _ hin).trans (if_neg hbusy), rfl, rfl, rfl, rfl, rfl, rfl, rfl, rfl, rfl⟩

end Sys2Proof.Machine
end
